-- ==== Sys2Proof/Word.lean ====
section
/-! DEFINITION. The plain types of the block: its words (R13) and its three-channel vectors (R15). -/

namespace Sys2Proof

/-- u8 (R13): a sample channel, a byte of `WIN` or `OUT`. -/
abbrev Byte := BitVec 8

/-- u16 (R13): a packed 5:6:5 color (R67). -/
abbrev Half := BitVec 16

/-- u32 (R13): `ARG`, `RES`, `STATUS`, a command word, a value on the port. -/
abbrev Word := BitVec 32

/-- A vector indexed by channel, R = 0, G = 1, B = 2 (R15). -/
structure Vec3 (α : Type) where
  r : α
  g : α
  b : α
deriving DecidableEq, Repr

/-- A sample used as an RGB vector (R15). -/
abbrev Rgb := Vec3 Byte

/-- The three color channels (R15). -/
inductive Channel where
  | r
  | g
  | b
deriving DecidableEq, Repr

end Sys2Proof
end

