-- ==== Sys2Proof/Syntax.lean ====
section
/-! DEFINITION. The command set BENC-1 (R61): one constructor per row of spec/opcode_table.json. -/

namespace Sys2Proof

/-- The commands. No command has an immediate, a register specifier or a mode bit (R60); the last row of the
table is the reserved range, whose words differ in their opcode. -/
inductive Instr where
  /-- OP 0x0, no operation (R150). -/
  | nop
  /-- OP 0x1, `RES <- Pack565` of the color in `ARG` (R84). -/
  | pack
  /-- OP 0x2, `RES <- Unpack565` of `ARG[15:0]` (R85). -/
  | unpack
  /-- OP 0x3, `RES <-` the fitted endpoint pair of `WIN` (R100). -/
  | fit
  /-- OP 0x4, `RES <-` the index word of `WIN` against the endpoints in `ARG` (R118). -/
  | cindex
  /-- OP 0x5, `OUT[0..7] <-` the alpha block of `WIN` (R140). -/
  | alpha
  /-- OP 0x6, `OUT[0..7] <-` the BC1 color block of `WIN` (R151). -/
  | bc1
  /-- OP 0x7, `OUT[0..15] <-` the BC3 record of `WIN` (R152). -/
  | bc3
  /-- OP 0x8 to 0xF with RSV = 0: the reserved range, which records ILLEGAL_OP (R63). -/
  | reserved (op : BitVec 4)
deriving DecidableEq, Repr

end Sys2Proof
end

