-- ==== Sys2Proof/WellFormed.lean ====
section
/-! DEFINITION. Which terms of `Instr` stand for a command word (R61, R63). -/

namespace Sys2Proof

/-- A reserved opcode is one of 0x8 to 0xF (R63); 0x0 to 0x7 are the eight commands (R61). -/
def Instr.wellFormed : Instr → Bool
  | .reserved op => decide (8 ≤ op.toNat)
  | .nop | .pack | .unpack | .fit | .cindex | .alpha | .bc1 | .bc3 => true

end Sys2Proof
end

