-- ==== Sys2Proof/Decode.lean ====
section
/-! DEFINITION. The command word CMD32 (R60 to R63, R75): the decoder, total on any word and any bytes, and the
encoder written from the same table. -/

namespace Sys2Proof

/-- Why a word or a byte string is no command. -/
inductive DecodeError where
  /-- Not exactly four bytes: every command is one 32-bit word (R75). -/
  | notOneWord
  /-- RSV ≠ 0 (R62); the block records RSVD_BITS for it. -/
  | reservedBits
deriving DecidableEq, Repr

/-- `OP` = word[3:0] (R60). -/
def opField (w : Word) : BitVec 4 := w.extractLsb' 0 4

/-- `RSV` = word[31:4] (R60). -/
def rsvField (w : Word) : BitVec 28 := w.extractLsb' 4 28

/-- The opcode map (R61); 0x8 to 0xF are the reserved range (R63). -/
def decodeOp (op : BitVec 4) : Instr :=
  match op.toNat with
  | 0x0 => .nop
  | 0x1 => .pack
  | 0x2 => .unpack
  | 0x3 => .fit
  | 0x4 => .cindex
  | 0x5 => .alpha
  | 0x6 => .bc1
  | 0x7 => .bc3
  | _ => .reserved op

/-- RSV is checked before OP (R62 "whatever its OP", R175). -/
def decode (w : Word) : Except DecodeError Instr :=
  if rsvField w ≠ 0 then .error .reservedBits else .ok (decodeOp (opField w))

/-- The four bytes of a word, lowest address first (R46). -/
def wordBytes (w : Word) : List Byte :=
  [w.extractLsb' 0 8, w.extractLsb' 8 8, w.extractLsb' 16 8, w.extractLsb' 24 8]

/-- A command arrives as four bytes, the byte at the lowest address least significant (R46, R75). -/
def decodeBytes : List Byte → Except DecodeError Instr
  | [b0, b1, b2, b3] => decode (b3 ++ b2 ++ b1 ++ b0)
  | _ => .error .notOneWord

/-- The opcode of each command (R61). -/
def Instr.opcode : Instr → BitVec 4
  | .nop => 0x0
  | .pack => 0x1
  | .unpack => 0x2
  | .fit => 0x3
  | .cindex => 0x4
  | .alpha => 0x5
  | .bc1 => 0x6
  | .bc3 => 0x7
  | .reserved op => op

/-- The command word of an instruction: RSV = 0, OP = its opcode (R60, R61). -/
def encode (i : Instr) : Word := 0#28 ++ i.opcode

/-- The command word as the bytes the port carries (R46). -/
def encodeBytes (i : Instr) : List Byte := wordBytes (encode i)

/-- What this decoder reads from an instruction whose bits are `w`, numbered as spec/opcode_table.json numbers
them; the bits above `nbits` are 0. -/
def decodeTableWord (nbits w : Nat) : Option Instr :=
  (decodeBytes (wordBytes (BitVec.ofNat 32 (w % 2 ^ nbits)))).toOption

end Sys2Proof
end

