-- ==== Sys2Proof/Config.lean ====
section
/-! DEFINITION. What one implementation fixes: the number of samples in a block (R9), and the one free value. The named parameters
of R10, which a variant may change, stand in Machine/Parameters.lean. -/

namespace Sys2Proof.Config

/-- A block holds 16 samples (R9). -/
def sampleCount : Nat := 16

/-- FREE VALUE (DESIGN CHOICE, notes/assumptions/2.md; safe): `unspecifiedByte k n a` is what address `a` of the port's
memory holds in the `k`-th copy of the block, after its `n`-th reset and until something is written there (R37, R38: "an
unspecified value"). It has no body, so no proof can see a value. It takes the copy because the instances of a platform
share nothing (R183), and the reset count and the address because a byte nothing writes keeps its value (R51: reads
"may be repeated with the same result"). -/
opaque unspecifiedByte : Nat → Nat → Nat → Byte

end Sys2Proof.Config
end

