-- ==== Sys2Proof/Machine/State.lean ====
section
/-! DEFINITION. The block's state as plain data (R20), the host's port operations, the reasons a step can stop,
and the state after reset (R36). -/

namespace Sys2Proof.Machine

/-- The port's memory, `WIN` and `OUT`, as (port address, byte) pairs: addresses strictly rising, each below 0x50
(`Memory.wf`). A byte that nothing has written since reset is not listed: R37 and R38 give it no value. -/
abbrev Memory := List Host.Cell

/-- The width of a port access; "No other width exists on the port" (R43). -/
inductive Width where
  /-- 1 byte. -/
  | byte
  /-- 2 bytes. -/
  | half
  /-- 4 bytes. -/
  | word
deriving DecidableEq, Repr

/-- What the host does to the block: the accesses of R45 in the spelling of R76, and reset (R190, R209).
A store of `n` bytes carries the low `n` bytes of its value (R45: `v : u(8n)`). -/
inductive PortOp where
  /-- `ld.b A`, `ld.h A`, `ld.w A`: MemRead(A, n). -/
  | ld (w : Width) (addr : BitVec 8)
  /-- `st.b A, V`, `st.h A, V`, `st.w A, V`: MemWrite(A, n, V). -/
  | st (w : Width) (addr : BitVec 8) (v : Word)
  /-- The platform applies reset (R190). -/
  | reset
deriving DecidableEq, Repr

/-- The architectural state is "exactly the following" (R20): `mem` (WIN and OUT), `arg`, `res`, `status`. The
last four fields are the model's own (notes/assumptions/4.md, 6.md, 7.md, 22.md). -/
structure State where
  /-- `WIN[i]` at port address `i`, `OUT[j]` at 0x40 + `j` (R42). -/
  mem : Memory
  /-- `ARG` (R25). -/
  arg : Word
  /-- `RES` (R26). -/
  res : Word
  /-- `STATUS` (R27); its fields are read through `Status` in Machine/Flags.lean. -/
  status : Word
  /-- The model's own: the accesses the host is going to make, oldest first, in the place of a program (R34). -/
  pending : List PortOp
  /-- The model's own: the values the host's reads have returned, oldest first (R194). -/
  returned : List Word
  /-- The model's own: how often reset has been applied; the free values are applied to it. -/
  resets : Nat
  /-- The model's own: which copy of the block this is. Only the free values are applied to it: no access reads it, an
  instance having "no identifier of its own" (R183). -/
  copy : Nat
deriving DecidableEq, Repr

/-- Where a model of this block stops (93_implementation_defined.md). Each is SAFE: the hardware goes on with a
value the spec does not give, and nothing is proved past the stop. -/
inductive Fault where
  /-- Raised by `fit`, `cindex`, `alpha`, `bc1` and `bc3` when they read a `WIN` byte that no host write has
  stored since reset (R37, U1). Safe. -/
  | unwrittenSample
  /-- Raised by a host read of `OUT` while `STATUS.OLEN` = 0 (R38, U2). Safe. -/
  | outUnspecified
  /-- Raised by a host read of `STATUS` that finds `ECODE` in 4 to 7 (R29, U8); no run reaches it. Safe. -/
  | reservedEcode
deriving DecidableEq, Repr

/-- Why a step gives an instruction no meaning. -/
inductive Refusal where
  /-- Raised by an arm of `exec` that has no meaning yet (there is none). Safe. -/
  | notModelled (mnemonic : String)
deriving DecidableEq, Repr

/-- The values after reset (R36): `ARG` = `RES` = `STATUS` = 0, `WIN` and `OUT` unspecified (nothing listed). The
model's own fields start empty or at 0 (DESIGN CHOICE, notes/assumptions/4.md, 6.md, 7.md, 22.md). -/
def State.reset : State where
  mem := []
  arg := 0x00000000
  res := 0x00000000
  status := 0x00000000
  pending := []
  returned := []
  resets := 0
  copy := 0

end Sys2Proof.Machine
end

