-- ==== Sys2Proof/Machine/Flags.lean ====
section
/-! DEFINITION. The fields of `STATUS` (R27) and the error codes (R171). The block has no other flags (R35). -/

namespace Sys2Proof.Machine

/-- The errors the block records (R171). -/
inductive ErrorCode where
  /-- A command word with RSV = 0 and OP in 0x8..0xF (R63). -/
  | illegalOp
  /-- A command word with RSV ≠ 0 (R62). -/
  | rsvdBits
  /-- A port access that is not legal (R44 to R50). -/
  | badAccess
deriving DecidableEq, Repr

/-- `STATUS.ECODE` of each error (R171); 0 is "no error recorded", 4 to 7 are never produced. -/
def ErrorCode.code : ErrorCode → BitVec 3
  | .illegalOp => 1
  | .rsvdBits => 2
  | .badAccess => 3

/-- `STATUS.ERR`, bit 0 (R27). -/
def Status.err (st : Word) : Bool := st.getLsbD 0

/-- `STATUS.ECODE`, bits 3:1 (R27). -/
def Status.ecode (st : Word) : BitVec 3 := st.extractLsb' 1 3

/-- `STATUS.OLEN`, bits 12:8 (R27). -/
def Status.olen (st : Word) : BitVec 5 := st.extractLsb' 8 5

/-- The bits of `STATUS` that are not reserved: 0, 3:1 and 12:8 (R27). -/
def Status.definedBits : Word := 0x00001F0F

/-- What a read of `STATUS` returns: the reserved bits read as 0 (R31). -/
def Status.readValue (st : Word) : Word := st &&& Status.definedBits

/-- `STATUS.ERR <- b`, every other bit unchanged. -/
def Status.setErr (st : Word) (b : Bool) : Word :=
  (st &&& ~~~0x00000001#32) ||| (BitVec.ofBool b).setWidth 32

/-- `STATUS.ECODE <- c`, every other bit unchanged. -/
def Status.setEcode (st : Word) (c : BitVec 3) : Word :=
  (st &&& ~~~0x0000000E#32) ||| (c.setWidth 32 <<< 1)

/-- `STATUS.OLEN <- n`, every other bit unchanged. -/
def Status.setOlen (st : Word) (n : BitVec 5) : Word :=
  (st &&& ~~~0x00001F00#32) ||| (n.setWidth 32 <<< 8)

/-- `raise Error(code)` on `STATUS` (R173): the first error since the last clear is kept. -/
def Status.raise (st : Word) (e : ErrorCode) : Word :=
  if Status.err st then st else Status.setEcode (Status.setErr st true) e.code

/-- Clearing `ERR` also writes `ECODE` to 0 (R28, R29). -/
def Status.clear (st : Word) : Word := Status.setEcode (Status.setErr st false) 0

end Sys2Proof.Machine
end

