-- ==== Sys2Proof/Machine/Ops.lean ====
section
/-! DEFINITION. The named operations over memory and registers: the port's memory in its canonical form, byte order,
recording and clearing an error (the block's whole exception mechanism, R170, R173, R179), the result registers,
and reset applied to a running block (R190). -/

namespace Sys2Proof.Machine

/-! ### The address map (R42) -/

/-- `WIN` is 0x00–0x3F; `OUT` begins where it ends. -/
def outBase : Nat := 0x40

/-- The first address past `OUT`, where the registers begin. -/
def memEnd : Nat := 0x50

/-- `CMD` at 0x50. -/
def cmdAddr : BitVec 8 := 0x50

/-- `ARG` at 0x54. -/
def argAddr : BitVec 8 := 0x54

/-- `RES` at 0x58. -/
def resAddr : BitVec 8 := 0x58

/-- `STATUS` at 0x5C. -/
def statusAddr : BitVec 8 := 0x5C

/-- How many bytes an access moves (R43). -/
def Width.bytes : Width → Nat
  | .byte => 1
  | .half => 2
  | .word => 4

/-! ### The port's memory -/

/-- The byte listed at an address; none where nothing has been written since reset (R37, R38). -/
def Memory.byte? : Memory → Nat → Option Byte
  | [], _ => none
  | (k, b) :: rest, a => if k = a then some b else Memory.byte? rest a

/-- Write one byte, keeping the addresses strictly rising. -/
def Memory.store : Memory → Nat → Byte → Memory
  | [], a, v => [(a, v)]
  | (k, b) :: rest, a, v =>
    if a < k then (a, v) :: (k, b) :: rest
    else if a = k then (a, v) :: rest
    else (k, b) :: Memory.store rest a v

/-- Write bytes at consecutive addresses, the first at `a`. -/
def Memory.storeAll : Memory → Nat → List Byte → Memory
  | m, _, [] => m
  | m, a, v :: vs => Memory.storeAll (Memory.store m a v) (a + 1) vs

/-- The listed addresses rise strictly and every one is at least `lo`. -/
def Memory.risingFrom (lo : Nat) : Memory → Bool
  | [] => true
  | (k, _) :: rest => decide (lo ≤ k) && Memory.risingFrom (k + 1) rest

/-- The canonical form: addresses strictly rising, all of them in `WIN` or `OUT`. No entry can equal what an
unlisted address reads as, since that is no value. -/
def Memory.wf (m : Memory) : Bool :=
  Memory.risingFrom 0 m && m.all fun c => decide (c.1 < memEnd)

/-- Whether something has been written at a port address since reset. -/
def State.written (s : State) (a : Nat) : Bool := (s.mem.byte? a).isSome

/-- The byte at a port address of `WIN` or `OUT`: what was last written there, else the unspecified value it holds
since reset (R37; notes/assumptions/2.md). -/
def State.byteAt (s : State) (a : Nat) : Byte :=
  (s.mem.byte? a).getD (Config.unspecifiedByte s.copy s.resets a)

/-! ### Byte order (R46) -/

/-- Assemble bytes, lowest address first, least significant first: `sum_k b_k << (8k)` (R45, R46). -/
def leWord : List Byte → Word
  | [] => 0
  | b :: bs => b.setWidth 32 ||| (leWord bs <<< 8)

/-- `n` bytes of `WIN` or `OUT` from address `a`, assembled (R45). -/
def State.readLE (s : State) (a n : Nat) : Word :=
  leWord ((List.range n).map fun k => s.byteAt (a + k))

/-- Write the low `n` bytes of `v` from address `a` (R45: `WIN[addr+k] <- v[8k+7:8k]`). -/
def State.writeLE (s : State) (a n : Nat) (v : Word) : State :=
  { s with mem := s.mem.storeAll a ((wordBytes v).take n) }

/-- `sum_i x_i << (k·i)` over a list of indices (R115, R136): the first lies in the low bits. -/
def packIndices (k : Nat) : List Nat → Nat
  | [] => 0
  | x :: xs => x + 2 ^ k * packIndices k xs

/-! ### Recording an error, and the return from one -/

/-- `raise Error(code)` (R173): only `STATUS.ERR` and `STATUS.ECODE` can change. The block never traps and jumps
nowhere (R170, R177). -/
def State.raise (s : State) (e : ErrorCode) : State :=
  { s with status := Status.raise s.status e }

/-- The "return": the host's write of 1 to bit 0 of `STATUS` clears `ERR` and `ECODE` (R179). -/
def State.clearError (s : State) : State :=
  { s with status := Status.clear s.status }

/-! ### Results -/

/-- `RES <- v` (R26). -/
def State.putRes (s : State) (v : Word) : State := { s with res := v }

/-- `ARG <- v` (R25). -/
def State.putArg (s : State) (v : Word) : State := { s with arg := v }

/-- Write a block record to `OUT[0..15]` and its length to `STATUS.OLEN` (R24, R30). -/
def State.putRecord (s : State) (bytes : List Byte) (olen : BitVec 5) : State :=
  { s with mem := s.mem.storeAll outBase bytes, status := Status.setOlen s.status olen }

/-- A host read returns `v` (R194). -/
def State.give (s : State) (v : Word) : State := { s with returned := s.returned ++ [v] }

/-- The eight zero bytes that follow an 8-byte record (R24). -/
def zeroTail : List Byte := List.replicate 8 0

/-- A command that reads `WIN` completes when every byte it reads has been written, and stops otherwise (R37). -/
def whenWritten (written : Bool) (t : State) : Host.Outcome State Fault Refusal :=
  if written then .next t else .fault .unwrittenSample

/-! ### Reset -/

/-- Reset applied to a running block (R190): every piece of state takes the value of R36, and `WIN` and `OUT` become
unspecified (again). The host's accesses and the values it has read are not the block's state and stay; so does which
copy of the block this is. -/
def State.applyReset (s : State) : State :=
  { State.reset with pending := s.pending, returned := s.returned, resets := s.resets + 1, copy := s.copy }

end Sys2Proof.Machine
end

