-- ==== Sys2Proof/Machine/Operands.lean ====
section
/-! DEFINITION. The operands a command reads: the samples of `WIN` (R21, R23) and the fields of `ARG` (R64). -/

namespace Sys2Proof

/-- The component of a vector on a channel (R15). -/
def Vec3.get {α : Type} (v : Vec3 α) : Channel → α
  | .r => v.r
  | .g => v.g
  | .b => v.b

/-- `u·v` = u0*v0 + u1*v1 + u2*v2 (R15). -/
def Vec3.dot {α : Type} [Mul α] [Add α] (u v : Vec3 α) : α := u.r * v.r + u.g * v.g + u.b * v.b

/-- `u − v`, channel by channel (R15). -/
def Vec3.sub {α : Type} [Sub α] (u v : Vec3 α) : Vec3 α := ⟨u.r - v.r, u.g - v.g, u.b - v.b⟩

/-- A sample's channels as exact rationals (R13, R91). -/
def Vec3.toRat (s : Rgb) : Vec3 Rat := ⟨(s.r.toNat : Rat), (s.g.toNat : Rat), (s.b.toNat : Rat)⟩

/-- A sample's channels as integers (R13, R111). -/
def Vec3.toInt (s : Rgb) : Vec3 Int := ⟨(s.r.toNat : Int), (s.g.toNat : Int), (s.b.toNat : Int)⟩

end Sys2Proof

namespace Sys2Proof.Machine

/-- The RGB bytes of sample `i`: `WIN[4i+0..2]` (R21). -/
def State.rgb (s : State) (i : Nat) : Rgb := ⟨s.byteAt (4 * i), s.byteAt (4 * i + 1), s.byteAt (4 * i + 2)⟩

/-- The alpha byte of sample `i`: `WIN[4i+3]` (R21, R131). -/
def State.alphaOf (s : State) (i : Nat) : Byte := s.byteAt (4 * i + 3)

/-- `s[0..15]`, what FIT, CINDEX, BC1 and BC3 read of the colors (R23, R91). -/
def State.rgbSamples (s : State) : List Rgb := (List.range Config.sampleCount).map s.rgb

/-- `α[0..15]`, what ALPHA and BC3 read (R23, R131). -/
def State.alphaSamples (s : State) : List Byte := (List.range Config.sampleCount).map s.alphaOf

/-- Every one of the 48 RGB bytes has been written since reset (R23, R37). -/
def State.rgbWritten (s : State) : Bool :=
  (List.range Config.sampleCount).all fun i => s.written (4 * i) && s.written (4 * i + 1) && s.written (4 * i + 2)

/-- Every one of the 16 alpha bytes has been written since reset (R23, R37). -/
def State.alphaWritten (s : State) : Bool :=
  (List.range Config.sampleCount).all fun i => s.written (4 * i + 3)

/-- ARG[7:0], the red operand of `pack` (R64). -/
def argRed (arg : Word) : Byte := arg.extractLsb' 0 8

/-- ARG[15:8], the green operand of `pack` (R64). -/
def argGreen (arg : Word) : Byte := arg.extractLsb' 8 8

/-- ARG[23:16], the blue operand of `pack` (R64). -/
def argBlue (arg : Word) : Byte := arg.extractLsb' 16 8

/-- ARG[15:0], the packed color of `unpack`, color0 of `cindex` (R64). -/
def argLow (arg : Word) : Half := arg.extractLsb' 0 16

/-- ARG[31:16], color1 of `cindex` (R64). -/
def argHigh (arg : Word) : Half := arg.extractLsb' 16 16

end Sys2Proof.Machine
end

