-- ==== Sys2Proof/Machine/Parameters.lean ====
section
/-! DEFINITION. The parameters of R10 as named constants, so that a model of a variant changes one of them in one
place. -/

namespace Sys2Proof.Config

/-- `UNPACK_BIAS5` (R10, R82; conflict C1, notes/assumptions/12.md). -/
def unpackBias5 : Nat := 15

/-- `UNPACK_BIAS6` (R10, R82; conflict C1, notes/assumptions/12.md). -/
def unpackBias6 : Nat := 35

/-- `SEED`, the binary32 values nearest 1, e and π (R94, D9; notes/assumptions/11.md). -/
def seed : Vec3 Rat := ⟨1, 2850325 / 2 ^ 20, 13176795 / 2 ^ 22⟩

/-- `POWER_STEPS` (R94). -/
def powerSteps : Nat := 3

/-- The numerator of `ALPHA_SCALE` = 79999/10000 (R133, D14; notes/assumptions/13.md). -/
def alphaScaleNum : Nat := 79999

/-- The denominator of `ALPHA_SCALE`. -/
def alphaScaleDen : Nat := 10000

/-- `COLOR_REMAP`, "a constant lookup table" (R113). -/
def colorRemap : List Nat := [0, 2, 3, 1]

/-- `ALPHA_REMAP` (R134). -/
def alphaRemap : List Nat := [1, 7, 6, 5, 4, 3, 2, 0]

end Sys2Proof.Config
end

