-- ==== Sys2Proof/Machine/Alpha.lean ====
section
/-! DEFINITION. The block alpha encoder (43_alpha.md) and its command `alpha`. -/

namespace Sys2Proof.Machine

/-- `a0 = max_i α_i` (R132). -/
def alphaMax (as : List Byte) : Nat := (as.map (·.toNat)).max?.getD 0

/-- `a1 = min_i α_i` (R132). -/
def alphaMin (as : List Byte) : Nat := (as.map (·.toNat)).min?.getD 0

/-- `floor((79999 * (α − a1)) / (10000 * (a0 − a1))) & 7` (R133, R137). -/
def alphaBucket (a0 a1 α : Nat) : Nat :=
  (Config.alphaScaleNum * (α - a1)) / (Config.alphaScaleDen * (a0 - a1)) &&& 7

/-- `idx = ALPHA_REMAP[q]` (R134), and 0 for flat alpha (R135). -/
def alphaIndex (a0 a1 α : Nat) : Nat :=
  if a0 = a1 then 0 else Config.alphaRemap.getD (alphaBucket a0 a1 α) 0

/-- The 48-bit index string `A = sum_i idx_i << (3*i)` (R136). -/
def alphaString (as : List Byte) : BitVec 48 :=
  BitVec.ofNat 48 (packIndices 3 (as.map fun α => alphaIndex (alphaMax as) (alphaMin as) α.toNat))

/-- `AlphaBlock(α[0..15]) -> 8 bytes`: a0, a1, then the index string low byte first (R71, R72, R137). -/
def alphaBlock (as : List Byte) : List Byte :=
  let A := alphaString as
  [BitVec.ofNat 8 (alphaMax as), BitVec.ofNat 8 (alphaMin as),
   A.extractLsb' 0 8, A.extractLsb' 8 8, A.extractLsb' 16 8,
   A.extractLsb' 24 8, A.extractLsb' 32 8, A.extractLsb' 40 8]

/-- `OUT[0..7] <- AlphaBlock(α)`, `OUT[8..15] <- 0`, `STATUS.OLEN <- 8` (R140). -/
def execAlpha (s : State) : Host.Outcome State Fault Refusal :=
  whenWritten s.alphaWritten (s.putRecord (alphaBlock s.alphaSamples ++ zeroTail) 8)

end Sys2Proof.Machine
end

