-- ==== Sys2Proof/Machine/Codec.lean ====
section
/-! DEFINITION. The packed-color 5:6:5 codec (40_codec.md) and its commands `pack` and `unpack`. -/

namespace Sys2Proof.Machine

/-- `((r & 0xF8) << 8) | ((g & 0xFC) << 3) | (b >> 3)` (R80). -/
def pack565 (r g b : Byte) : Half :=
  ((r &&& 0xF8).setWidth 16 <<< 8) ||| ((g &&& 0xFC).setWidth 16 <<< 3) ||| (b >>> 3).setWidth 16

/-- A 5-bit field expanded to 8 bits: `(f * 527 + UNPACK_BIAS5) >> 6` (R82). -/
def expand5 (f : BitVec 5) : Byte := BitVec.ofNat 8 ((f.toNat * 527 + Config.unpackBias5) >>> 6)

/-- A 6-bit field expanded to 8 bits: `(f * 259 + UNPACK_BIAS6) >> 6` (R82). -/
def expand6 (f : BitVec 6) : Byte := BitVec.ofNat 8 ((f.toNat * 259 + Config.unpackBias6) >>> 6)

/-- Red is `v[15:11]`, green `v[10:5]`, blue `v[4:0]` (R67), each expanded (R82). -/
def unpack565 (v : Half) : Rgb :=
  ⟨expand5 (v.extractLsb' 11 5), expand6 (v.extractLsb' 5 6), expand5 (v.extractLsb' 0 5)⟩

/-- `RES <- zext_32(Pack565(ARG[7:0], ARG[15:8], ARG[23:16]))` (R84). -/
def execPack (s : State) : Host.Outcome State Fault Refusal :=
  .next (s.putRes ((pack565 (argRed s.arg) (argGreen s.arg) (argBlue s.arg)).setWidth 32))

/-- `(r,g,b) := Unpack565(ARG[15:0]); RES <- {8'h00, b, g, r}` (R85). -/
def execUnpack (s : State) : Host.Outcome State Fault Refusal :=
  let c := unpack565 (argLow s.arg)
  .next (s.putRes (0#8 ++ c.b ++ c.g ++ c.r))

end Sys2Proof.Machine
end

