-- ==== Sys2Proof/Machine/ColorFit.lean ====
section
/-! DEFINITION. The color-line fitter and endpoint quantizer (41_color_fit.md) in exact rationals (R13, D8), and its
command `fit`. R103: "reimplement as-is", no more accurate fit. -/

namespace Sys2Proof.Machine

/-- `m_c = S_c / 16` (R92). -/
def mean (ss : List (Vec3 Rat)) : Vec3 Rat :=
  ⟨(ss.map (·.r)).sum / 16, (ss.map (·.g)).sum / 16, (ss.map (·.b)).sum / 16⟩

/-- `C[c][k] = sum_i (s_i.c − m_c) * (s_i.k − m_k)`, a sum, not divided by 16 (R93). -/
def covTerm (ss : List (Vec3 Rat)) (m : Vec3 Rat) (c k : Channel) : Rat :=
  (ss.map fun s => (s.get c - m.get c) * (s.get k - m.get k)).sum

/-- The six upper-triangular terms that determine the symmetric matrix `C` (R93). -/
structure Covariance where
  rr : Rat
  rg : Rat
  rb : Rat
  gg : Rat
  gb : Rat
  bb : Rat
deriving DecidableEq, Repr

/-- The covariance of the samples about their mean (R93). -/
def covariance (ss : List (Vec3 Rat)) : Covariance :=
  let m := mean ss
  { rr := covTerm ss m .r .r, rg := covTerm ss m .r .g, rb := covTerm ss m .r .b,
    gg := covTerm ss m .g .g, gb := covTerm ss m .g .b, bb := covTerm ss m .b .b }

/-- `d_{k+1}[j] = sum_c d_k[c] * C[c][j]` (R94). -/
def powerStep (C : Covariance) (d : Vec3 Rat) : Vec3 Rat :=
  ⟨d.r * C.rr + d.g * C.rg + d.b * C.rb,
   d.r * C.rg + d.g * C.gg + d.b * C.gb,
   d.r * C.rb + d.g * C.gb + d.b * C.bb⟩

/-- `n` power-iteration steps (R94), never normalized. -/
def powerIterate (C : Covariance) : Nat → Vec3 Rat → Vec3 Rat
  | 0, d => d
  | n + 1, d => powerIterate C n (powerStep C d)

/-- The direction `d = d_3` from the seed (R94). -/
def direction (ss : List (Vec3 Rat)) : Vec3 Rat := powerIterate (covariance ss) Config.powerSteps Config.seed

/-- `scale` = 0 if L = 0, 1 / L if L > 0 (R95). -/
def lineScale (L : Rat) : Rat := if L = 0 then 0 else 1 / L

/-- `dot_i = s_i · d` (R95). -/
def projections (ss : List (Vec3 Rat)) (d : Vec3 Rat) : List Rat := ss.map (·.dot d)

/-- `tMax = (dotMax − mc) * scale` (R95). -/
def tMax (ss : List (Vec3 Rat)) (d : Vec3 Rat) : Rat :=
  ((projections ss d).max?.getD 0 - (mean ss).dot d) * lineScale (d.dot d)

/-- `tMin = (dotMin − mc) * scale` (R95). -/
def tMin (ss : List (Vec3 Rat)) (d : Vec3 Rat) : Rat :=
  ((projections ss d).min?.getD 0 - (mean ss).dot d) * lineScale (d.dot d)

/-- `clamp(x, lo, hi)` = min(max(x, lo), hi) (R13). -/
def clampRat (x lo hi : Rat) : Rat := min (max x lo) hi

/-- `Quantize8(x) := floor(clamp(x, 0, 255) + 1/2)`, a u8 (R96). -/
def quantize8 (x : Rat) : Byte := BitVec.ofInt 8 (clampRat x 0 255 + 1 / 2).floor

/-- `Quantize8(m_c + t * d[c])` for each channel (R96). -/
def endpoint (m : Vec3 Rat) (t : Rat) (d : Vec3 Rat) : Rgb :=
  ⟨quantize8 (m.r + t * d.r), quantize8 (m.g + t * d.g), quantize8 (m.b + t * d.b)⟩

/-- The 8-bit endpoints E0 and E1 of the line through the mean along `d` (R95, R96). -/
def lineEndpoints (ss : List (Vec3 Rat)) (d : Vec3 Rat) : Rgb × Rgb :=
  (endpoint (mean ss) (tMax ss d) d, endpoint (mean ss) (tMin ss d) d)

/-- Pack both endpoints (R97) and order them: (p1, p0) if p0 < p1, else (p0, p1) (R98). -/
def packOrdered (E0 E1 : Rgb) : Half × Half :=
  let p0 := pack565 E0.r E0.g E0.b
  let p1 := pack565 E1.r E1.g E1.b
  if p0 < p1 then (p1, p0) else (p0, p1)

/-- `FitLine(s[0..15]) -> (color0, color1)` (R90, R101). -/
def fitLine (samples : List Rgb) : Half × Half :=
  let ss := samples.map Vec3.toRat
  let E := lineEndpoints ss (direction ss)
  packOrdered E.1 E.2

/-- `(c0, c1) := FitLine(s[0..15]); RES <- {c1, c0}` (R100). -/
def execFit (s : State) : Host.Outcome State Fault Refusal :=
  let c := fitLine s.rgbSamples
  whenWritten s.rgbWritten (s.putRes (c.2 ++ c.1))

end Sys2Proof.Machine
end

