-- ==== Sys2Proof/Machine/ColorIndex.lean ====
section
/-! DEFINITION. The pixel indexer and the color block (42_color_index.md), and the command `cindex`. -/

namespace Sys2Proof.Machine

/-- `pos = clamp(floor((6*n + L) / (2*L)), 0, 3)`, and 0 on a zero-length line (R112, R114, R117). For a positive
divisor, `/` on `Int` is the floor of the quotient. -/
def linePosition (L n : Int) : Nat :=
  if L = 0 then 0 else (min (max ((6 * n + L) / (2 * L)) 0) 3).toNat

/-- `idx = COLOR_REMAP[pos]` of a sample against the unpacked endpoints, with `δ = u1 − u0`, `L = δ·δ` and
`n = δ·(s − u0)` (R111 to R114). -/
def colorIndex (u0 u1 : Rgb) (s : Rgb) : Nat :=
  let δ := u1.toInt.sub u0.toInt
  Config.colorRemap.getD (linePosition (δ.dot δ) (δ.dot (s.toInt.sub u0.toInt))) 0

/-- `ColorIndices(s[0..15], color0, color1) -> u32` (R110, R115, R117). -/
def colorIndices (samples : List Rgb) (color0 color1 : Half) : Word :=
  BitVec.ofNat 32 (packIndices 2 (samples.map (colorIndex (unpack565 color0) (unpack565 color1))))

/-- `ColorBlock(s[0..15]) -> 8 bytes` (R68, R69, R116). -/
def colorBlock (samples : List Rgb) : List Byte :=
  let c := fitLine samples
  let W := colorIndices samples c.1 c.2
  [c.1.extractLsb' 0 8, c.1.extractLsb' 8 8, c.2.extractLsb' 0 8, c.2.extractLsb' 8 8] ++ wordBytes W

/-- `RES <- ColorIndices(s[0..15], ARG[15:0], ARG[31:16])` (R118). -/
def execCindex (s : State) : Host.Outcome State Fault Refusal :=
  whenWritten s.rgbWritten (s.putRes (colorIndices s.rgbSamples (argLow s.arg) (argHigh s.arg)))

end Sys2Proof.Machine
end

