-- ==== Sys2Proof/Machine/Block.lean ====
section
/-! DEFINITION. The block commands `nop`, `bc1` and `bc3` (44_block_commands.md) and the reserved opcodes (R63). -/

namespace Sys2Proof.Machine

/-- No state changes (R150). -/
def execNop (s : State) : Host.Outcome State Fault Refusal := .next s

/-- `OUT[0..7] <- ColorBlock(s)`, `OUT[8..15] <- 0`, `STATUS.OLEN <- 8` (R151). -/
def execBc1 (s : State) : Host.Outcome State Fault Refusal :=
  whenWritten s.rgbWritten (s.putRecord (colorBlock s.rgbSamples ++ zeroTail) 8)

/-- `OUT[0..7] <- AlphaBlock(α)`, `OUT[8..15] <- ColorBlock(s)`, `STATUS.OLEN <- 16` (R74, R152). -/
def execBc3 (s : State) : Host.Outcome State Fault Refusal :=
  whenWritten (s.rgbWritten && s.alphaWritten)
    (s.putRecord (alphaBlock s.alphaSamples ++ colorBlock s.rgbSamples) 16)

/-- A reserved opcode records ILLEGAL_OP and has no other effect (R63); it is executed as no command (U10). -/
def execReserved (_op : BitVec 4) (s : State) : Host.Outcome State Fault Refusal :=
  .next (s.raise .illegalOp)

end Sys2Proof.Machine
end

