-- ==== Sys2Proof/Machine/Dispatch.lean ====
section
/-! DEFINITION. The command dispatch of R66 on a decoded command: one arm per constructor of `Instr`. -/

namespace Sys2Proof.Machine

def exec (i : Instr) (s : State) : Host.Outcome State Fault Refusal :=
  match i with
  | .nop => Sys2Proof.Machine.execNop s
  | .pack => Sys2Proof.Machine.execPack s
  | .unpack => Sys2Proof.Machine.execUnpack s
  | .fit => Sys2Proof.Machine.execFit s
  | .cindex => Sys2Proof.Machine.execCindex s
  | .alpha => Sys2Proof.Machine.execAlpha s
  | .bc1 => Sys2Proof.Machine.execBc1 s
  | .bc3 => Sys2Proof.Machine.execBc3 s
  | .reserved op => Sys2Proof.Machine.execReserved op s

end Sys2Proof.Machine
end

