-- ==== Sys2Proof/Machine/Port.lean ====
section
/-! DEFINITION. The host port (20_memory.md): which accesses are legal, what a read and a write do (R45), and the
command trigger (R66). -/

namespace Sys2Proof.Machine

/-- Natural alignment: `addr mod n = 0` (R44). -/
def aligned (a : BitVec 8) (w : Width) : Bool := decide (a.toNat % w.bytes = 0)

/-- `legal_read(addr, n)` (R45). `n in {1,2,4}` is the type `Width`. -/
def legalRead (a : BitVec 8) (w : Width) : Bool :=
  aligned a w &&
    (decide (a.toNat + w.bytes - 1 ≤ 0x4F) ||
      (decide (a ∈ [cmdAddr, argAddr, resAddr, statusAddr]) && decide (w = .word)))

/-- `legal_write(addr, n)` (R45): not `OUT`, not `RES`. -/
def legalWrite (a : BitVec 8) (w : Width) : Bool :=
  aligned a w &&
    (decide (a.toNat + w.bytes - 1 ≤ 0x3F) ||
      (decide (a ∈ [cmdAddr, argAddr, statusAddr]) && decide (w = .word)))

/-- `Execute(v)` (R66): RSV ≠ 0 records RSVD_BITS and has no other effect (R62); any other word is a command. -/
def execute (v : Word) (s : State) : Host.Outcome State Fault Refusal :=
  match decode v with
  | .error _ => .next (s.raise .rsvdBits)
  | .ok i => exec i s

/-- `MemRead(addr, n)` (R45). An illegal read records BAD_ACCESS and returns 0 (R44, R49, R50); a read of `OUT` while
OLEN = 0 stops (R38, U2), and so does a read of `STATUS` that finds a reserved ECODE (U8). -/
def memRead (a : BitVec 8) (w : Width) (s : State) : Host.Outcome State Fault Refusal :=
  if legalRead a w = false then .next ((s.raise .badAccess).give 0)
  else if a.toNat ≤ 0x3F then .next (s.give (s.readLE a.toNat w.bytes))
  else if a.toNat ≤ 0x4F then
    if Status.olen s.status = 0 then .fault .outUnspecified
    else .next (s.give (s.readLE a.toNat w.bytes))
  else if a = cmdAddr then .next (s.give 0)
  else if a = argAddr then .next (s.give s.arg)
  else if a = resAddr then .next (s.give s.res)
  else if 4 ≤ (Status.ecode s.status).toNat then .fault .reservedEcode
  else .next (s.give (Status.readValue s.status))

/-- `MemWrite(addr, n, v)` (R45). An illegal write records BAD_ACCESS and changes nothing else (R44, R48 to R50); a
write to `CMD` runs the command (R32); a write to `STATUS` clears the error when bit 0 is 1 (R28). -/
def memWrite (a : BitVec 8) (w : Width) (v : Word) (s : State) : Host.Outcome State Fault Refusal :=
  if legalWrite a w = false then .next (s.raise .badAccess)
  else if a.toNat ≤ 0x3F then .next (s.writeLE a.toNat w.bytes v)
  else if a = cmdAddr then execute v s
  else if a = argAddr then .next (s.putArg v)
  else if v.getLsbD 0 then .next s.clearError
  else .next s

/-- One interaction of the host with the block (R209). -/
def perform (op : PortOp) (s : State) : Host.Outcome State Fault Refusal :=
  match op with
  | .ld w a => memRead a w s
  | .st w a v => memWrite a w v s
  | .reset => .next s.applyReset

end Sys2Proof.Machine
end

