-- ==== Sys2Proof/Machine/Step.lean ====
section
/-! DEFINITION. One step: the host's next access is performed, whole (R51, R52, R206). -/

namespace Sys2Proof.Machine

/-- The host's accesses are performed one at a time, in the order the host issues them, each completing before the
next (R52). With no access pending the block does nothing (R34; notes/assumptions/5.md). -/
def step (s : State) : Host.Outcome State Fault Refusal :=
  match s.pending with
  | [] => .next s
  | op :: rest => perform op { s with pending := rest }

/-- The host issues the command word `w` next: a 4-byte write to `CMD` at the head of its accesses (R60, R75;
notes/assumptions/4.md). The bits above `nbits` are 0. -/
def State.withFetchWord (s : State) (nbits w : Nat) : State :=
  { s with pending := PortOp.st .word cmdAddr (BitVec.ofNat 32 (w % 2 ^ nbits)) :: s.pending }

end Sys2Proof.Machine
end

