-- ==== Sys2Proof/Machine/Assembler.lean ====
section
/-! DEFINITION. The assembler syntax (R76) and the pseudo-instructions (R77) as terms: each line stands for its exact
sequence of port operations. -/

namespace Sys2Proof.Machine

/-- One line of a program (R76, R77). -/
inductive AsmLine where
  /-- `st.b A, V`, `st.h A, V`, `st.w A, V`. -/
  | st (w : Width) (a : BitVec 8) (v : Word)
  /-- `ld.b A`, `ld.h A`, `ld.w A`. -/
  | ld (w : Width) (a : BitVec 8)
  /-- A command mnemonic with no operands: "always the raw command" (R77). A reserved word has no mnemonic; a host
  writes it by `st.w`. -/
  | command (i : Instr)
  /-- `texel I, R, G, B, A`. -/
  | texel (i : Fin 16) (r g b a : Byte)
  /-- `setarg V`. -/
  | setarg (v : Word)
  /-- `pack R, G, B`. -/
  | packOf (r g b : Byte)
  /-- `unpack V`. -/
  | unpackOf (v : Word)
  /-- `cindex C0, C1`. -/
  | cindexOf (c0 c1 : Half)
  /-- `getres`. -/
  | getres
  /-- `getstatus`. -/
  | getstatus
  /-- `getout J`. -/
  | getout (j : Fin 4)
  /-- `clrerr`. -/
  | clrerr
deriving DecidableEq, Repr

/-- A raw command is `st.w 0x50, W` with `W` its word (R76). -/
def commandOp (i : Instr) : PortOp := .st .word cmdAddr (encode i)

/-- The exact expansions (R77). -/
def AsmLine.expand : AsmLine → List PortOp
  | .st w a v => [.st w a v]
  | .ld w a => [.ld w a]
  | .command i => [commandOp i]
  | .texel i r g b a => [.st .word (BitVec.ofNat 8 (4 * i.val)) (a ++ b ++ g ++ r)]
  | .setarg v => [.st .word argAddr v]
  | .packOf r g b => [.st .word argAddr (0#8 ++ b ++ g ++ r), commandOp .pack]
  | .unpackOf v => [.st .word argAddr v, commandOp .unpack]
  | .cindexOf c0 c1 => [.st .word argAddr (c1 ++ c0), commandOp .cindex]
  | .getres => [.ld .word resAddr]
  | .getstatus => [.ld .word statusAddr]
  | .getout j => [.ld .word (BitVec.ofNat 8 (outBase + 4 * j.val))]
  | .clrerr => [.st .word statusAddr 0x00000001]

/-- A program is a sequence of lines (R76), that is, a sequence of port operations. -/
def assemble (lines : List AsmLine) : List PortOp := lines.flatMap AsmLine.expand

/-- The host is given a program: its accesses follow whatever the host was already going to do (R34). -/
def State.load (s : State) (lines : List AsmLine) : State := { s with pending := s.pending ++ assemble lines }

end Sys2Proof.Machine
end

