-- ==== Sys2Proof/Machine/HostLoop.lean ====
section
/-! DEFINITION. The host duties of 70_reset_and_hazards.md (R200 to R204): GMRT's Image Block Iterator, which R5 puts
outside the block. They are plain functions over an image, no part of State and used by no meaning; a program they
make is a list of port operations. -/

namespace Sys2Proof.Machine

/-- The output format (R2). -/
inductive Format where
  | bc1
  | bc3
deriving DecidableEq, Repr

/-- `blockBytes` (R203). -/
def Format.blockBytes : Format → Nat
  | .bc1 => 8
  | .bc3 => 16

/-- The block command of a format (R202). -/
def Format.command : Format → Instr
  | .bc1 => .bc1
  | .bc3 => .bc3

/-- An image buffer: `channels` bytes for each pixel, pixels row by row. -/
structure Image where
  width : Nat
  height : Nat
  channels : Nat
  bytes : List Byte
deriving DecidableEq, Repr

/-- GMRT's input contract (R204). The block checks none of it (R184); this model of the host refuses an image that
breaks it (U11). -/
def Image.contract (img : Image) : Bool :=
  decide (0 < img.width) && decide (0 < img.height) && decide (1 ≤ img.channels) && decide (img.channels ≤ 4) &&
    decide (img.width * img.height * img.channels ≤ img.bytes.length)

/-- Channel `c` of the pixel in column `x` and row `y`. -/
def Image.channel (img : Image) (x y c : Nat) : Byte :=
  img.bytes.getD ((y * img.width + x) * img.channels + c) 0

/-- The (r, g, b, a) texel of a pixel (R201): one or two channels broadcast channel 0, an even count carries alpha. -/
def Image.texel (img : Image) (x y : Nat) : Byte × Byte × Byte × Byte :=
  let ch := img.channel x y
  match img.channels with
  | 1 => (ch 0, ch 0, ch 0, 255)
  | 2 => (ch 0, ch 0, ch 0, ch 1)
  | 3 => (ch 0, ch 1, ch 2, 255)
  | _ => (ch 0, ch 1, ch 2, ch 3)

/-- Pixel `(x, y)` of the tile at `(tx, ty)`: the last valid column and row are replicated (R200). -/
def Image.tilePixel (img : Image) (tx ty x y : Nat) : Byte × Byte × Byte × Byte :=
  img.texel (min (tx + x) (img.width - 1)) (min (ty + y) (img.height - 1))

/-- The 16 texel writes of one tile, sample `i` = pixel (i mod 4, i div 4) (R22, R200). -/
def Image.fillTile (img : Image) (tx ty : Nat) : List AsmLine :=
  (List.finRange 16).map fun i =>
    let t := img.tilePixel tx ty (i.val % 4) (i.val / 4)
    .texel i t.1 t.2.1 t.2.2.1 t.2.2.2

/-- The word reads of the `blockBytes` bytes of a record (R193). -/
def Format.readRecord : Format → List AsmLine
  | .bc1 => [.getout 0, .getout 1]
  | .bc3 => [.getout 0, .getout 1, .getout 2, .getout 3]

/-- One tile: fill `WIN`, issue one block command, read the record (R202). -/
def Image.tileLines (img : Image) (f : Format) (tx ty : Nat) : List AsmLine :=
  img.fillTile tx ty ++ [.command f.command] ++ f.readRecord

/-- How many tiles cover `n` pixels: ceil(n/4) (R203). -/
def tilesFor (n : Nat) : Nat := (n + 3) / 4

/-- The tiles "in row-major order (outer loop over rows in steps of 4, inner over columns in steps of 4)" (R202). -/
def Image.tiles (img : Image) : List (Nat × Nat) :=
  (List.range (tilesFor img.height)).flatMap fun row =>
    (List.range (tilesFor img.width)).map fun col => (4 * col, 4 * row)

/-- The whole image as a program, the same format for every tile (R202); refused where the contract is broken
(U11). -/
def Image.lines (img : Image) (f : Format) : Option (List AsmLine) :=
  if img.contract then some (img.tiles.flatMap fun t => img.tileLines f t.1 t.2) else none

/-- `ceil(width/4) * ceil(height/4) * blockBytes` (R203). -/
def Image.streamLength (img : Image) (f : Format) : Nat :=
  tilesFor img.width * tilesFor img.height * f.blockBytes

/-- The host appends the bytes of every word it reads, in order (R202). -/
def streamOf (returned : List Word) : List Byte := returned.flatMap wordBytes

end Sys2Proof.Machine
end

