-- ==== Sys2Proof/Machine/Platform.lean ====
section
/-! DEFINITION. A platform with INSTANCES copies of the block (R183, D28): each has its own port and its own copy of
every piece of state, and they share nothing, the bytes that reset leaves unspecified included. INSTANCES is OPEN, so it
is an argument. -/

namespace Sys2Proof.Machine

/-- The instances of a platform, in some order; an instance has no identifier of its own (R183). -/
abbrev Platform := List State

/-- Copy `k` of the block at reset: the values of R36, with unspecified bytes of its own (R183; notes/assumptions/14.md,
22.md). -/
def State.resetCopy (k : Nat) : State := { State.reset with copy := k }

/-- Every instance starts at reset (R183). -/
def Platform.reset (instances : Nat) : Platform := (List.range instances).map State.resetCopy

/-- Instance `k` performs its host's next access; the others do nothing. None where there is no such instance, or the
access stops. -/
def Platform.stepAt (p : Platform) (k : Nat) : Option Platform :=
  match p[k]? with
  | none => none
  | some s =>
    match step s with
    | .next t => some (p.set k t)
    | .fault _ => none
    | .refused _ => none

end Sys2Proof.Machine
end

