-- ==== Sys2Proof/Safety.lean ====
section
/-! DEFINITION. What a legal state and a safe step are, in the terms the claims use. -/

namespace Sys2Proof.Machine

/-- Byte `j` of `OUT` (R14). -/
def State.out (s : State) (j : Nat) : Byte := s.byteAt (outBase + j)

/-- The packed color whose low byte is `OUT[j]` (R68). -/
def State.outHalf (s : State) (j : Nat) : Half := s.out (j + 1) ++ s.out j

/-- The host has written every `WIN` byte the command reads (R23, R192). -/
def ready (i : Instr) (s : State) : Bool :=
  match i with
  | .fit | .cindex | .bc1 => s.rgbWritten
  | .alpha => s.alphaWritten
  | .bc3 => s.rgbWritten && s.alphaWritten
  | .nop | .pack | .unpack | .reserved _ => true

/-- The command reads the `WIN` byte at address `a` (R23): FIT, CINDEX and BC1 the 48 RGB bytes, ALPHA the 16 alpha
bytes, BC3 all 64, the others none. -/
def readsWin (i : Instr) (a : Nat) : Bool :=
  match i with
  | .fit | .cindex | .bc1 => decide (a < 64) && decide (a % 4 ≠ 3)
  | .alpha => decide (a < 64) && decide (a % 4 = 3)
  | .bc3 => decide (a < 64)
  | .nop | .pack | .unpack | .reserved _ => false

/-- The error an access records (R171, in the order of R175): BAD_ACCESS where the port rejects it, else, for a `CMD`
write, RSVD_BITS where RSV ≠ 0 and ILLEGAL_OP where OP is 0x8 to 0xF. -/
def PortOp.error? : PortOp → Option ErrorCode
  | .ld w a => if legalRead a w then none else some .badAccess
  | .st w a v =>
    if legalWrite a w = false then some .badAccess
    else if a = cmdAddr then
      if 16 ≤ v.toNat then some .rsvdBits else if 8 ≤ v.toNat then some .illegalOp else none
    else none
  | .reset => none

/-- An access that records an error. -/
def PortOp.erroneous (op : PortOp) : Bool := op.error?.isSome

/-- The next access runs and stops in no fault. -/
def SafeStep (s : State) : Prop := ∃ t, step s = .next t

/-- `STATUS` holds only what the block produces: reserved bits 0 (R31), `ECODE` at most 3 (R29), `ERR` set exactly
when an error code is recorded (R29, R173), `OLEN` 0, 8 or 16 (R30). -/
def StatusLegal (st : Word) : Prop :=
  st &&& ~~~Status.definedBits = 0 ∧ (Status.ecode st).toNat ≤ 3 ∧
    (Status.err st = true ↔ Status.ecode st ≠ 0) ∧
    (Status.olen st = 0 ∨ Status.olen st = 8 ∨ Status.olen st = 16)

/-- `OUT` against `OLEN`: unwritten while `OLEN` = 0 (R38), all 16 bytes written after the first record, and bytes 8
to 15 zero after an 8-byte record (R24). -/
def OutMatchesOlen (s : State) : Prop :=
  (Status.olen s.status = 0 → ∀ j < 16, s.written (outBase + j) = false) ∧
    (Status.olen s.status ≠ 0 → ∀ j < 16, s.written (outBase + j) = true) ∧
    (Status.olen s.status = 8 → ∀ j < 16, 8 ≤ j → s.out j = 0)

/-- The states the block can be in. -/
structure Legal (s : State) : Prop where
  /-- The port's memory is in its canonical form. -/
  memory : s.mem.wf = true
  /-- `STATUS` holds a legal value. -/
  status : StatusLegal s.status
  /-- `OUT` and `OLEN` agree. -/
  out : OutMatchesOlen s

/-- `OUT[k..k+7]` is a legal alpha block: a0 ≥ a1 (R132), and no index bit is set when they are equal (R135). -/
def AlphaRecordAt (s : State) (k : Nat) : Prop :=
  s.out (k + 1) ≤ s.out k ∧ (s.out k = s.out (k + 1) → ∀ j < 8, 2 ≤ j → s.out (k + j) = 0)

/-- `OUT[k..k+7]` is a legal color block: color0 ≥ color1, and all its indices are 0 when they are equal (R120). -/
def ColorRecordAt (s : State) (k : Nat) : Prop :=
  s.outHalf (k + 2) ≤ s.outHalf k ∧
    (s.outHalf k = s.outHalf (k + 2) → ∀ j < 8, 4 ≤ j → s.out (k + j) = 0)

/-- The record `OLEN` announces is one the encoder can emit: an alpha block or a color block of 8 bytes, or an alpha
block followed by a color block (R74). -/
def RecordLegal (s : State) : Prop :=
  (Status.olen s.status = 8 → AlphaRecordAt s 0 ∨ ColorRecordAt s 0) ∧
    (Status.olen s.status = 16 → AlphaRecordAt s 0 ∧ ColorRecordAt s 8)

end Sys2Proof.Machine
end

