-- ==== Sys2Proof/Certificates/Slice0/Obligations.lean ====
section
/-! DEFINITION. The statements about the block, from the numbered rules of spec/. -/

open Sys2Proof Sys2Proof.Machine

/-! ### Reset, the port and one step -/

/-- R36, the values after reset. -/
def Obligations.ResetValues : Prop :=
  State.reset.arg = 0x00000000 ∧ State.reset.res = 0x00000000 ∧ State.reset.status = 0x00000000 ∧
    Status.err State.reset.status = false ∧ Status.ecode State.reset.status = 0 ∧
    Status.olen State.reset.status = 0 ∧ ∀ a, State.reset.written a = false

/-- Reset applied to a running block (70_reset_and_hazards.md §1): the values of R36 again, from any state. That the
host's accesses and the values it has read stay is the model's choice (log 4, 6). -/
def Obligations.ResetAppliedToARunningBlock : Prop :=
  ∀ (s : State) (rest : List PortOp), s.pending = .reset :: rest →
    ∃ t, step s = .next t ∧ t.arg = 0 ∧ t.res = 0 ∧ t.status = 0 ∧ (∀ a, t.written a = false) ∧
      t.pending = rest ∧ t.returned = s.returned

/-- 20_memory.md §5: accesses are performed one at a time, oldest first. That the block idles when the host makes no
access is the model's choice (log 5). -/
def Obligations.StepPerformsTheOldestAccess : Prop :=
  (∀ (s : State) (op : PortOp) (rest : List PortOp), s.pending = op :: rest →
    step s = perform op { s with pending := rest }) ∧
  ∀ s : State, s.pending = [] → step s = .next s

/-- A step runs the decoded command: a 4-byte write to `CMD` whose word decodes to `i` is `exec i` on the state that
has dropped the access, whether the word is given whole or as its four bytes. -/
def Obligations.StepRunsTheDecodedCommand : Prop :=
  ∀ (s : State) (rest : List PortOp) (v : Word) (i : Instr), s.pending = .st .word 0x50 v :: rest →
    (decode v = .ok i ∨ decodeBytes (wordBytes v) = .ok i) →
    step s = exec i { s with pending := rest }

/-- R44, a misaligned access is not performed and not split. -/
def Obligations.MisalignedAccessRecordsBadAccess : Prop :=
  ∀ (s : State) (a : BitVec 8) (w : Width) (v : Word), a.toNat % w.bytes ≠ 0 →
    (∃ t, perform (.ld w a) s = .next t ∧ t.returned = s.returned ++ [0] ∧
      t.status = Status.raise s.status .badAccess ∧ t.mem = s.mem ∧ t.arg = s.arg ∧ t.res = s.res) ∧
    ∃ t, perform (.st w a v) s = .next t ∧ t.returned = s.returned ∧
      t.status = Status.raise s.status .badAccess ∧ t.mem = s.mem ∧ t.arg = s.arg ∧ t.res = s.res

/-- R49 and R50, and the write half of R48: the accesses the port rejects by address. -/
def Obligations.RejectedAddressesRecordBadAccess : Prop :=
  ∀ (s : State) (a : BitVec 8) (w : Width) (v : Word),
    (0x50 ≤ a.toNat ∧ a.toNat ≤ 0x5F ∧ w ≠ .word ∨ 0x60 ≤ a.toNat →
      perform (.ld w a) s = .next { s with status := Status.raise s.status .badAccess, returned := s.returned ++ [0] } ∧
      perform (.st w a v) s = .next { s with status := Status.raise s.status .badAccess }) ∧
    (0x40 ≤ a.toNat ∧ a.toNat ≤ 0x4F ∨ a = 0x58 →
      perform (.st w a v) s = .next { s with status := Status.raise s.status .badAccess })

/-- 20_memory.md §3, `WIN`: a write changes exactly the addressed bytes, a read after it returns them, and a 4-byte write
to `4i` sets sample `i`. That the word a narrow read returns is padded with zeros above the bytes read is the model's
choice (log 19). -/
def Obligations.WindowWriteThenRead : Prop :=
  ∀ (s : State) (a : BitVec 8) (w : Width) (v : Word), a.toNat % w.bytes = 0 → a.toNat + w.bytes ≤ 0x40 →
    ∃ t u, perform (.st w a v) s = .next t ∧ perform (.ld w a) t = .next u ∧
      u.returned = s.returned ++ [(v.setWidth (8 * w.bytes)).setWidth 32] ∧ u.mem = t.mem ∧
      (∀ k < w.bytes, t.byteAt (a.toNat + k) = v.extractLsb' (8 * k) 8) ∧
      (∀ a', a' < a.toNat ∨ a.toNat + w.bytes ≤ a' → t.byteAt a' = s.byteAt a' ∧ t.written a' = s.written a') ∧
      t.arg = s.arg ∧ t.res = s.res ∧ t.status = s.status ∧
      (∀ i, w = .word → a.toNat = 4 * i →
        t.rgb i = ⟨v.extractLsb' 0 8, v.extractLsb' 8 8, v.extractLsb' 16 8⟩ ∧ t.alphaOf i = v.extractLsb' 24 8)

/-- 20_memory.md §4: a legal read has no side effect and returns the same value when repeated, a `WIN` byte nothing
has written included (that it runs on a free value is the model's choice, log 2). -/
def Obligations.ReadsRepeat : Prop :=
  ∀ (s t : State) (a : BitVec 8) (w : Width), legalRead a w = true → perform (.ld w a) s = .next t →
    ∃ x, t = { s with returned := s.returned ++ [x] } ∧
      perform (.ld w a) t = .next { t with returned := t.returned ++ [x] }

/-- Every legal read of `WIN` answers a next state, written or not (20_memory.md §3; log 2 for the unwritten case). -/
def Obligations.WindowReadsComplete : Prop :=
  ∀ (s : State) (a : BitVec 8) (w : Width), a.toNat % w.bytes = 0 → a.toNat + w.bytes ≤ 0x40 →
    ∃ x, perform (.ld w a) s = .next { s with returned := s.returned ++ [x] } ∧
      ∀ k < w.bytes, x.extractLsb' (8 * k) 8 = s.byteAt (a.toNat + k)

/-- The registers on the port (20_memory.md §2, §3): a read of `CMD` returns 0, of `ARG`, `RES` and `STATUS` their
value, and a write of `ARG` stores the word. -/
def Obligations.RegisterAccesses : Prop :=
  ∀ (s : State) (v : Word),
    perform (.ld .word 0x50) s = .next { s with returned := s.returned ++ [0] } ∧
    perform (.ld .word 0x54) s = .next { s with returned := s.returned ++ [s.arg] } ∧
    perform (.ld .word 0x58) s = .next { s with returned := s.returned ++ [s.res] } ∧
    ((Status.ecode s.status).toNat ≤ 3 →
      perform (.ld .word 0x5C) s = .next { s with returned := s.returned ++ [s.status &&& 0x00001F0F] }) ∧
    perform (.st .word 0x54 v) s = .next { s with arg := v }

/-- R38, a host read of `OUT` while `OLEN` = 0 stops; afterwards it returns the addressed bytes. -/
def Obligations.OutReadsNeedARecord : Prop :=
  ∀ (s : State) (a : BitVec 8) (w : Width), a.toNat % w.bytes = 0 → 0x40 ≤ a.toNat → a.toNat ≤ 0x4F →
    (Status.olen s.status = 0 → perform (.ld w a) s = .fault .outUnspecified) ∧
    (Status.olen s.status ≠ 0 →
      ∃ x, perform (.ld w a) s = .next { s with returned := s.returned ++ [x] } ∧
        ∀ k < w.bytes, x.extractLsb' (8 * k) 8 = s.byteAt (a.toNat + k))

/-! ### Errors and STATUS -/

/-- R173, `raise Error(code)`. -/
def Obligations.RaiseKeepsTheFirstError : Prop :=
  ∀ (s : State) (e : ErrorCode),
    (Status.err s.status = false →
      Status.err (s.raise e).status = true ∧ Status.ecode (s.raise e).status = e.code) ∧
    (Status.err s.status = true → s.raise e = s) ∧
    (s.raise e).mem = s.mem ∧ (s.raise e).arg = s.arg ∧ (s.raise e).res = s.res ∧
    Status.olen (s.raise e).status = Status.olen s.status ∧
    (s.raise e).status &&& ~~~0x0000000F#32 = s.status &&& ~~~0x0000000F#32

/-- R174, errors are precise. -/
def Obligations.ErrorsArePrecise : Prop :=
  ∀ (s : State) (op : PortOp), op.erroneous = true →
    ∃ t, perform op s = .next t ∧ t.mem = s.mem ∧ t.arg = s.arg ∧ t.res = s.res ∧
      t.status &&& ~~~0x0000000F#32 = s.status &&& ~~~0x0000000F#32 ∧ Status.err t.status = true ∧
      ((∃ w a, op = .ld w a) → t.returned = s.returned ++ [0]) ∧
      ((∃ w a v, op = .st w a v) → t.returned = s.returned)

/-- R175, the order of the checks: legality, then RSV, then OP. -/
def Obligations.ErrorPriority : Prop :=
  ∀ (s : State) (a : BitVec 8) (w : Width) (v : Word), Status.err s.status = false →
    (legalRead a w = false → ∃ t, perform (.ld w a) s = .next t ∧ Status.err t.status = true ∧
      Status.ecode t.status = 3) ∧
    (legalWrite a w = false → ∃ t, perform (.st w a v) s = .next t ∧ Status.err t.status = true ∧
      Status.ecode t.status = 3) ∧
    (16 ≤ v.toNat → ∃ t, perform (.st .word 0x50 v) s = .next t ∧ Status.err t.status = true ∧
      Status.ecode t.status = 2) ∧
    (8 ≤ v.toNat → v.toNat < 16 → ∃ t, perform (.st .word 0x50 v) s = .next t ∧ Status.err t.status = true ∧
      Status.ecode t.status = 1)

/-- Only an erroneous access sets `ERR` (60_exceptions.md §1). -/
def Obligations.OnlyErroneousAccessesSetErr : Prop :=
  ∀ s t : State, step s = .next t → Status.err s.status = false → Status.err t.status = true →
    ∃ op rest, s.pending = op :: rest ∧ op.erroneous = true

/-- R28, `ERR` is set by every error, stays until it is cleared or reset, and stops nothing. -/
def Obligations.ErrIsSticky : Prop :=
  (∀ (s : State) (e : ErrorCode), Status.err (s.raise e).status = true) ∧
  (∀ s t : State, step s = .next t → Status.err s.status = true → Status.err t.status = false →
    ∃ rest, s.pending = .reset :: rest ∨ ∃ v, v.getLsbD 0 = true ∧ s.pending = .st .word 0x5C v :: rest) ∧
  (∀ (s : State) (v : Word), v.getLsbD 0 = true →
    ∃ t, perform (.st .word 0x5C v) s = .next t ∧ Status.err t.status = false) ∧
  ∀ (s : State) (e : ErrorCode), SafeStep s → SafeStep (s.raise e)

/-- R29, `ECODE` is the code of the error that set `ERR`. -/
def Obligations.EcodeHoldsTheFirstError : Prop :=
  ∀ s t : State, step s = .next t →
    (Status.err s.status = true → Status.err t.status = true → Status.ecode t.status = Status.ecode s.status) ∧
    (Status.err s.status = true → Status.err t.status = false → Status.ecode t.status = 0) ∧
    (Status.err s.status = false → Status.err t.status = true →
      ∃ op rest e, s.pending = op :: rest ∧ op.error? = some e ∧ Status.ecode t.status = e.code) ∧
    ((Status.ecode s.status).toNat ≤ 3 → (Status.ecode t.status).toNat ≤ 3)

/-- R31, the reserved bits of `STATUS` read as 0, and a write changes only `ERR` and `ECODE`. -/
def Obligations.StatusWritesChangeOnlyTheError : Prop :=
  ∀ (s : State) (v : Word),
    (∃ t, perform (.st .word 0x5C v) s = .next t ∧
      t.status &&& ~~~0x0000000F#32 = s.status &&& ~~~0x0000000F#32 ∧
      (v.getLsbD 0 = true → Status.err t.status = false ∧ Status.ecode t.status = 0) ∧
      (v.getLsbD 0 = false → t.status = s.status) ∧
      t = { s with status := t.status }) ∧
    ((Status.ecode s.status).toNat ≤ 3 →
      ∃ x, perform (.ld .word 0x5C) s = .next { s with returned := s.returned ++ [x] } ∧
        x &&& 0xFFFFE0F0 = 0)

/-- R30, who writes `OLEN`. -/
def Obligations.OlenIsWrittenByBlockCommands : Prop :=
  (∀ (i : Instr) (s t : State), exec i s = .next t →
    (i = .alpha ∨ i = .bc1 → Status.olen t.status = 8) ∧
    (i = .bc3 → Status.olen t.status = 16) ∧
    (i ≠ .alpha → i ≠ .bc1 → i ≠ .bc3 → Status.olen t.status = Status.olen s.status)) ∧
  (∀ (s t : State) (v : Word), 8 ≤ v.toNat → execute v s = .next t →
    Status.olen t.status = Status.olen s.status) ∧
  ∀ s t : State, step s = .next t →
    Status.olen s.status = 0 ∨ Status.olen s.status = 8 ∨ Status.olen s.status = 16 →
    Status.olen t.status = 0 ∨ Status.olen t.status = 8 ∨ Status.olen t.status = 16

/-! ### The command word -/

/-- Words written out from the encoding table (R60, R61) decode to the commands they stand for. -/
def Obligations.SpecWordsDecode : Prop :=
  decode 0x00000000#32 = .ok .nop ∧ decode 0x00000001#32 = .ok .pack ∧ decode 0x00000002#32 = .ok .unpack ∧
    decode 0x00000003#32 = .ok .fit ∧ decode 0x00000004#32 = .ok .cindex ∧ decode 0x00000005#32 = .ok .alpha ∧
    decode 0x00000006#32 = .ok .bc1 ∧ decode 0x00000007#32 = .ok .bc3 ∧
    decode 0x0000000B#32 = .ok (.reserved 0xB) ∧ decode 0x0000001F#32 = .error .reservedBits ∧
    decodeBytes [0x06, 0x00, 0x00, 0x80] = .error .reservedBits

/-- Decode and encode agree, both ways, on words and on bytes: no command word is dropped and none is shared. -/
def Obligations.DecodeEncodeAgree : Prop :=
  (∀ i : Instr, i.wellFormed = true → decode (encode i) = .ok i ∧ decodeBytes (encodeBytes i) = .ok i) ∧
  (∀ (w : Word) (i : Instr), decode w = .ok i → i.wellFormed = true ∧ encode i = w) ∧
  (∀ (bs : List Byte) (i : Instr), decodeBytes bs = .ok i → encodeBytes i = bs)

/-- R62, R63 and R66: what every one of the 2^32 command words does. -/
def Obligations.EveryCommandWordIsAccountedFor : Prop :=
  ∀ (v : Word) (s : State),
    (v.toNat / 16 ≠ 0 → execute v s = .next { s with status := Status.raise s.status .rsvdBits }) ∧
    (v.toNat / 16 = 0 → 8 ≤ v.toNat % 16 →
      execute v s = .next { s with status := Status.raise s.status .illegalOp }) ∧
    (v.toNat / 16 = 0 → v.toNat % 16 < 8 →
      ∃ i, [Instr.nop, .pack, .unpack, .fit, .cindex, .alpha, .bc1, .bc3][v.toNat % 16]? = some i ∧
        execute v s = exec i s)

/-- A reserved opcode completes as the recorded error (R63) and changes nothing else. -/
def Obligations.ReservedOpcodeRecordsIllegalOp : Prop :=
  ∀ (op : BitVec 4) (s : State),
    ∃ t, exec (.reserved op) s = .next t ∧ t = { s with status := t.status } ∧ Status.err t.status = true ∧
      (Status.err s.status = false → Status.ecode t.status = 1) ∧
      (Status.err s.status = true → t = s) ∧
      t.status &&& ~~~0x0000000F#32 = s.status &&& ~~~0x0000000F#32

/-! ### Completion, stops and frames of the commands -/

/-- R172, the eight legal commands complete and raise no error, whatever `WIN` and `ARG` hold. -/
def Obligations.LegalCommandsRaiseNoError : Prop :=
  ∀ (i : Instr) (s : State), (∀ op, i ≠ .reserved op) →
    (∀ a, readsWin i a = true → s.written a = true) →
    ∃ t, exec i s = .next t ∧ Status.err t.status = Status.err s.status ∧
      Status.ecode t.status = Status.ecode s.status

/-- R37, a command that reads a `WIN` byte no write has stored since reset stops, and no other command stops. -/
def Obligations.UnwrittenSamplesStop : Prop :=
  ∀ (i : Instr) (s : State),
    exec i s = .fault .unwrittenSample ↔ ∃ a, readsWin i a = true ∧ s.mem.byte? a = none

/-- R150, `nop`; the word with OP = 0 and RSV ≠ 0 is not `nop`. -/
def Obligations.NopChangesNothing : Prop :=
  (∀ s : State, exec .nop s = .next s) ∧
  ∀ (s : State) (v : Word), v.toNat % 16 = 0 → v ≠ 0 →
    execute v s = .next { s with status := Status.raise s.status .rsvdBits }

/-- The frame of the commands that write `RES` alone, `pack`, `unpack`, `fit` and `cindex`: no byte of memory, no other
register and no bit of `STATUS` changes. -/
def Obligations.RegisterCommandsFrame : Prop :=
  ∀ (i : Instr) (s t : State), i = .pack ∨ i = .unpack ∨ i = .fit ∨ i = .cindex → exec i s = .next t →
    t.arg = s.arg ∧ t.status = s.status ∧ (∀ a, t.byteAt a = s.byteAt a ∧ t.written a = s.written a) ∧
      t.pending = s.pending ∧ t.returned = s.returned ∧ t.resets = s.resets ∧ t.copy = s.copy

/-- The frame of the commands that store a record, `alpha`, `bc1` and `bc3`: every byte outside the 16 bytes from
`outBase` (`OUT`) reads as before, and of `STATUS` only `OLEN` changes. -/
def Obligations.BlockCommandsFrame : Prop :=
  ∀ (i : Instr) (s t : State), i = .alpha ∨ i = .bc1 ∨ i = .bc3 → exec i s = .next t →
    t.arg = s.arg ∧ t.res = s.res ∧
      t.status &&& ~~~0x00001F00#32 = s.status &&& ~~~0x00001F00#32 ∧
      (∀ a, a < outBase ∨ outBase + 16 ≤ a → t.byteAt a = s.byteAt a ∧ t.written a = s.written a) ∧
      (∀ j < 16, t.written (outBase + j) = true) ∧
      t.pending = s.pending ∧ t.returned = s.returned ∧ t.resets = s.resets ∧ t.copy = s.copy

/-- R155, a block command's output depends only on the `WIN` bytes it reads. -/
def Obligations.BlockCommandsDependOnlyOnWhatTheyRead : Prop :=
  ∀ (i : Instr) (s s' t t' : State), i = .alpha ∨ i = .bc1 ∨ i = .bc3 →
    (∀ a, readsWin i a = true → s.mem.byte? a = s'.mem.byte? a) →
    exec i s = .next t → exec i s' = .next t' → ∀ j < 16, t.out j = t'.out j

/-! ### The packed-color codec -/

/-- R84, `pack`: each field of `RES` is the top bits of its operand, and RES[31:16] is 0. -/
def Obligations.PackWritesTheTopBits : Prop :=
  ∀ s : State, ∃ t, exec .pack s = .next t ∧ t = { s with res := t.res } ∧
    t.res.extractLsb' 11 5 = s.arg.extractLsb' 3 5 ∧ t.res.extractLsb' 5 6 = s.arg.extractLsb' 10 6 ∧
    t.res.extractLsb' 0 5 = s.arg.extractLsb' 19 5 ∧ t.res.extractLsb' 16 16 = 0

/-- R81, `Pack565` field by field, its preimages, and its monotonicity in each channel. -/
def Obligations.PackPreimages : Prop :=
  (∀ (r g b : Byte) (v : Half), pack565 r g b = v ↔
    (8 * (v.extractLsb' 11 5).toNat ≤ r.toNat ∧ r.toNat ≤ 8 * (v.extractLsb' 11 5).toNat + 7) ∧
    (4 * (v.extractLsb' 5 6).toNat ≤ g.toNat ∧ g.toNat ≤ 4 * (v.extractLsb' 5 6).toNat + 3) ∧
    (8 * (v.extractLsb' 0 5).toNat ≤ b.toNat ∧ b.toNat ≤ 8 * (v.extractLsb' 0 5).toNat + 7)) ∧
  (∀ r r' g g' b b' : Byte, r ≤ r' → g ≤ g' → b ≤ b' → pack565 r g b ≤ pack565 r' g' b') ∧
  (∀ r g b : Byte, (pack565 r g b).extractLsb' 11 5 = (r >>> 3).setWidth 5 ∧
    (pack565 r g b).extractLsb' 5 6 = (g >>> 2).setWidth 6 ∧ (pack565 r g b).extractLsb' 0 5 = (b >>> 3).setWidth 5) ∧
  ∀ v : Half, ∃ r g b, pack565 r g b = v

/-- R82 and R85, `unpack`: GMRT's affine formulas with the literals 15 and 35. -/
def Obligations.UnpackExpandsEachField : Prop :=
  ∀ s : State, ∃ t, exec .unpack s = .next t ∧ t = { s with res := t.res } ∧
    (t.res.extractLsb' 0 8).toNat = ((s.arg.extractLsb' 11 5).toNat * 527 + 15) / 64 ∧
    (t.res.extractLsb' 8 8).toNat = ((s.arg.extractLsb' 5 6).toNat * 259 + 35) / 64 ∧
    (t.res.extractLsb' 16 8).toNat = ((s.arg.extractLsb' 0 5).toNat * 527 + 15) / 64 ∧
    t.res.extractLsb' 24 8 = 0

/-- R83, the tables E5 and E6, strictly increasing, and `Unpack565` injective. -/
def Obligations.UnpackTables : Prop :=
  (List.range 32).map (fun f => (expand5 (BitVec.ofNat 5 f)).toNat) =
    [0, 8, 16, 24, 33, 41, 49, 57, 66, 74, 82, 90, 99, 107, 115, 123,
     131, 140, 148, 156, 164, 173, 181, 189, 197, 206, 214, 222, 230, 239, 247, 255] ∧
  (List.range 64).map (fun f => (expand6 (BitVec.ofNat 6 f)).toNat) =
    [0, 4, 8, 12, 16, 20, 24, 28, 32, 36, 41, 45, 49, 53, 57, 61,
     65, 69, 73, 77, 81, 85, 89, 93, 97, 101, 105, 109, 113, 117, 121, 126,
     130, 134, 138, 142, 146, 150, 154, 158, 162, 166, 170, 174, 178, 182, 186, 190,
     194, 198, 202, 206, 210, 215, 219, 223, 227, 231, 235, 239, 243, 247, 251, 255] ∧
  (∀ f f' : BitVec 5, f < f' → expand5 f < expand5 f') ∧
  (∀ f f' : BitVec 6, f < f' → expand6 f < expand6 f') ∧
  ∀ v w : Half, unpack565 v = unpack565 w ↔ v = w

/-- R86, the true round-trip bound, with the extremes reached. -/
def Obligations.PackUnpackRoundTrip : Prop :=
  (∀ s : State, ∃ t u, exec .pack s = .next t ∧ exec .unpack { t with arg := t.res } = .next u ∧
    (∀ k, k = 0 ∨ k = 16 →
      -7 ≤ ((s.arg.extractLsb' k 8).toNat : Int) - (u.res.extractLsb' k 8).toNat ∧
      ((s.arg.extractLsb' k 8).toNat : Int) - (u.res.extractLsb' k 8).toNat ≤ 7) ∧
    -3 ≤ ((s.arg.extractLsb' 8 8).toNat : Int) - (u.res.extractLsb' 8 8).toNat ∧
    ((s.arg.extractLsb' 8 8).toNat : Int) - (u.res.extractLsb' 8 8).toNat ≤ 3) ∧
  unpack565 (pack565 7 3 7) = ⟨0, 0, 0⟩ ∧ unpack565 (pack565 232 212 232) = ⟨239, 215, 239⟩

/-! ### The color-line fitter -/

/-- R101, `fit` computes the formulas of the spec: exact rationals over the 16 samples, with the maximum and minimum
projection, the quantized endpoints, their packing and their order. The digits of the seed are PRESUMED (log 11): the
spec takes them from general knowledge. -/
def Obligations.FitComputesTheSpecFormula : Prop :=
  ∀ (s : State) (x : Fin 16 → Channel → ℚ) (m : Channel → ℚ) (C : Channel → Channel → ℚ) (d : Nat → Channel → ℚ)
    (L mc dotMax dotMin scale : ℚ) (E0 E1 : Channel → Nat) (p0 p1 : Nat),
    s.rgbWritten = true →
    (∀ i c, x i c = (((s.rgb i).get c).toNat : ℚ)) →
    (∀ c, m c = (∑ i, x i c) / 16) →
    (∀ c k, C c k = ∑ i, (x i c - m c) * (x i k - m k)) →
    (d 0 .r = 1 ∧ d 0 .g = 2850325 / 1048576 ∧ d 0 .b = 13176795 / 4194304) →
    (∀ n j, d (n + 1) j = d n .r * C .r j + d n .g * C .g j + d n .b * C .b j) →
    L = d 3 .r * d 3 .r + d 3 .g * d 3 .g + d 3 .b * d 3 .b →
    mc = m .r * d 3 .r + m .g * d 3 .g + m .b * d 3 .b →
    (∀ i, x i .r * d 3 .r + x i .g * d 3 .g + x i .b * d 3 .b ≤ dotMax) →
    (∃ i, x i .r * d 3 .r + x i .g * d 3 .g + x i .b * d 3 .b = dotMax) →
    (∀ i, dotMin ≤ x i .r * d 3 .r + x i .g * d 3 .g + x i .b * d 3 .b) →
    (∃ i, x i .r * d 3 .r + x i .g * d 3 .g + x i .b * d 3 .b = dotMin) →
    scale = (if L = 0 then 0 else 1 / L) →
    (∀ c, (E0 c : Int) = ⌊min (max (m c + (dotMax - mc) * scale * d 3 c) 0) 255 + 1 / 2⌋) →
    (∀ c, (E1 c : Int) = ⌊min (max (m c + (dotMin - mc) * scale * d 3 c) 0) 255 + 1 / 2⌋) →
    p0 = E0 .r / 8 * 2048 + E0 .g / 4 * 32 + E0 .b / 8 →
    p1 = E1 .r / 8 * 2048 + E1 .g / 4 * 32 + E1 .b / 8 →
    ∃ t, exec .fit s = .next t ∧ t = { s with res := t.res } ∧
      (t.res.extractLsb' 0 16).toNat = max p0 p1 ∧ (t.res.extractLsb' 16 16).toNat = min p0 p1

/-- R98, the pair is ordered: color0 is the larger and color1 the smaller of the two packed endpoints. -/
def Obligations.FitOrdersItsEndpoints : Prop :=
  ∀ s : State, s.rgbWritten = true →
    ∃ t E0 E1, exec .fit s = .next t ∧
      (E0, E1) = lineEndpoints (s.rgbSamples.map Vec3.toRat) (direction (s.rgbSamples.map Vec3.toRat)) ∧
      (t.res.extractLsb' 0 16).toNat = max (pack565 E0.r E0.g E0.b).toNat (pack565 E1.r E1.g E1.b).toNat ∧
      (t.res.extractLsb' 16 16).toNat = min (pack565 E0.r E0.g E0.b).toNat (pack565 E1.r E1.g E1.b).toNat

/-- R99, a solid block has no covariance and no direction and gives its own packed color twice; the direction is zero
for no other block. The converse rests on the digits of the seed, which are PRESUMED (log 11). -/
def Obligations.FitDirectionIsZeroOnlyOnSolidBlocks : Prop :=
  (∀ (s : State) (c : Rgb) (ss : List (Vec3 ℚ)), s.rgbWritten = true → (∀ i < 16, s.rgb i = c) →
    ss = s.rgbSamples.map Vec3.toRat →
    covariance ss = ⟨0, 0, 0, 0, 0, 0⟩ ∧ direction ss = ⟨0, 0, 0⟩ ∧ (direction ss).dot (direction ss) = 0 ∧
    tMax ss (direction ss) = 0 ∧ tMin ss (direction ss) = 0 ∧ lineEndpoints ss (direction ss) = (c, c) ∧
    exec .fit s = .next { s with res := pack565 c.r c.g c.b ++ pack565 c.r c.g c.b }) ∧
  ∀ (s : State) (ss : List (Vec3 ℚ)), (∃ i j, i < 16 ∧ j < 16 ∧ s.rgb i ≠ s.rgb j) →
    ss = s.rgbSamples.map Vec3.toRat →
    direction ss ≠ ⟨0, 0, 0⟩ ∧ 0 < (direction ss).dot (direction ss)

/-- R102, the invariances of `FitLine`: positive scaling of the covariance or of the seed, permutation of the samples,
and tMax ≥ 0 ≥ tMin. -/
def Obligations.FitInvariances : Prop :=
  (∀ (ss : List (Vec3 ℚ)) (C : Covariance) (d : Vec3 ℚ) (k : ℚ), 0 < k →
    lineEndpoints ss (powerIterate ⟨k * C.rr, k * C.rg, k * C.rb, k * C.gg, k * C.gb, k * C.bb⟩ Config.powerSteps d) =
      lineEndpoints ss (powerIterate C Config.powerSteps d) ∧
    lineEndpoints ss (powerIterate C Config.powerSteps ⟨k * d.r, k * d.g, k * d.b⟩) =
      lineEndpoints ss (powerIterate C Config.powerSteps d)) ∧
  (∀ l l' : List Rgb, l.Perm l' → fitLine l = fitLine l') ∧
  ∀ (ss : List (Vec3 ℚ)) (d : Vec3 ℚ), ss.length = 16 → 0 ≤ tMax ss d ∧ tMin ss d ≤ 0

/-! ### The pixel indexer and the color block -/

/-- R111 to R115, `cindex`: each sample's index by the line parameter in exact rationals, rounded half up, which is
the integer quotient of R112, clamped and remapped; 0 for equal endpoints. -/
def Obligations.CindexAssignsEveryIndex : Prop :=
  ∀ s : State, s.rgbWritten = true →
    ∃ t, exec .cindex s = .next t ∧ t = { s with res := t.res } ∧
      (s.arg.extractLsb' 0 16 = s.arg.extractLsb' 16 16 → t.res = 0) ∧
      ∀ (i : Nat) (u0 u1 δ x : Vec3 ℚ) (τ : ℚ) (L n : Int), i < 16 →
        s.arg.extractLsb' 0 16 ≠ s.arg.extractLsb' 16 16 →
        u0 = (unpack565 (s.arg.extractLsb' 0 16)).toRat → u1 = (unpack565 (s.arg.extractLsb' 16 16)).toRat →
        δ = u1.sub u0 → x = (s.rgb i).toRat → (L : ℚ) = δ.dot δ → (n : ℚ) = δ.dot (x.sub u0) →
        τ = n / L →
        0 < L ∧ L ≤ 195075 ∧ ⌊3 * τ + 1 / 2⌋ = (6 * n + L) / (2 * L) ∧
        (t.res.extractLsb' (2 * i) 2).toNat = [0, 2, 3, 1].getD (min (max ⌊3 * τ + 1 / 2⌋ 0) 3).toNat 0

/-- R119, the properties of the indexer. -/
def Obligations.IndexerProperties : Prop :=
  (∀ c0 c1 : Half, c0 ≠ c1 → colorIndex (unpack565 c0) (unpack565 c1) (unpack565 c0) = 0 ∧
    colorIndex (unpack565 c0) (unpack565 c1) (unpack565 c1) = 1) ∧
  (∀ L n n' : Int, 0 < L → n ≤ n' → linePosition L n ≤ linePosition L n') ∧
  ∀ L n : Int, 0 < L → (n ≤ 0 → linePosition L n = 0) ∧ (L ≤ n → linePosition L n = 3)

/-- 42_color_index.md §2, swapped endpoints do not mirror a tie: where 3t is exactly k + 1/2 the position is k + 1,
and 3 − k in the swapped order. It is said of the indexer itself, whose index is the remapped position, on any two
endpoints in both orders (the swapped line has the same length and the sample the projection L − n), and of the
positions alone. -/
def Obligations.IndexerTiesGoUpBothWays : Prop :=
  (∀ (u0 u1 s : Rgb) (L n : Int) (k : Nat),
    L = (u1.toInt.sub u0.toInt).dot (u1.toInt.sub u0.toInt) → n = (u1.toInt.sub u0.toInt).dot (s.toInt.sub u0.toInt) →
    0 < L → k ≤ 2 → 6 * n = (2 * k + 1) * L →
    (u0.toInt.sub u1.toInt).dot (u0.toInt.sub u1.toInt) = L ∧
    (u0.toInt.sub u1.toInt).dot (s.toInt.sub u1.toInt) = L - n ∧
    colorIndex u0 u1 s = [0, 2, 3, 1].getD (k + 1) 0 ∧ colorIndex u1 u0 s = [0, 2, 3, 1].getD (3 - k) 0) ∧
  ∀ (L n k : Int), 0 < L → 0 ≤ k → k ≤ 2 → 6 * n = (2 * k + 1) * L →
    (linePosition L n : Int) = k + 1 ∧ (linePosition L (L - n) : Int) = 3 - k

/-- R116 and R151, `bc1` is the fitter followed by the indexer: the two words of the record, read through the port, are
the `RES` of `fit` and the `RES` of `cindex` on the fitted pair. -/
def Obligations.Bc1IsFitThenCindex : Prop :=
  ∀ s : State, s.rgbWritten = true →
    ∃ t f x u v, exec .bc1 s = .next t ∧ exec .fit s = .next f ∧ exec .cindex { f with arg := f.res } = .next x ∧
      perform (.ld .word 0x40) t = .next u ∧ u.returned = s.returned ++ [f.res] ∧
      perform (.ld .word 0x44) t = .next v ∧ v.returned = s.returned ++ [x.res] ∧
      (∀ j < 16, 8 ≤ j → t.out j = 0) ∧ Status.olen t.status = 8 ∧
      Status.err t.status = Status.err s.status ∧ Status.ecode t.status = Status.ecode s.status ∧
      t.res = s.res ∧ t.arg = s.arg

/-- R120, no color block the block emits has color0 ≤ color1 together with an index of 3. -/
def Obligations.ColorBlocksAreOpaque : Prop :=
  ∀ (i : Instr) (s t : State) (k : Nat), (i = .bc1 ∧ k = 0 ∨ i = .bc3 ∧ k = 8) → exec i s = .next t →
    ColorRecordAt t k ∧
    ¬ (t.outHalf k ≤ t.outHalf (k + 2) ∧
      ∃ n < 16, (t.out (k + 4 + n / 4)).extractLsb' (2 * (n % 4)) 2 = 3)

/-! ### The alpha encoder and the BC3 record -/

/-- R132 to R136, `alpha`: the endpoints are the maximum and the minimum, and each index is the remapped floor of the
scaled distance in exact rationals, which is the integer quotient of R133 and at most 7; all indices are 0 for flat
alpha. -/
def Obligations.AlphaBlockBytes : Prop :=
  ∀ s : State, s.alphaWritten = true →
    ∃ (t : State) (A : BitVec 48), exec .alpha s = .next t ∧
      A = t.out 7 ++ t.out 6 ++ t.out 5 ++ t.out 4 ++ t.out 3 ++ t.out 2 ∧
      Status.olen t.status = 8 ∧ (∀ j < 16, 8 ≤ j → t.out j = 0) ∧
      (∀ i < 16, s.alphaOf i ≤ t.out 0 ∧ t.out 1 ≤ s.alphaOf i) ∧
      (∃ i < 16, s.alphaOf i = t.out 0) ∧ (∃ i < 16, s.alphaOf i = t.out 1) ∧
      (t.out 0 = t.out 1 → A = 0) ∧
      ∀ (i D k : Nat), i < 16 → t.out 1 ≠ t.out 0 → D = (t.out 0).toNat - (t.out 1).toNat →
        k = (s.alphaOf i).toNat - (t.out 1).toNat →
        ⌊(k : ℚ) * (79999 / 10000) / D⌋ = ((79999 * k / (10000 * D) : Nat) : Int) ∧
        79999 * k / (10000 * D) ≤ 7 ∧
        (A.extractLsb' (3 * i) 3).toNat = [1, 7, 6, 5, 4, 3, 2, 0].getD ⌊(k : ℚ) * (79999 / 10000) / D⌋.toNat 0

/-- R138, the properties of the alpha encoder. -/
def Obligations.AlphaEncoderProperties : Prop :=
  (∀ a0 a1 : Nat, a1 < a0 → a0 ≤ 255 → alphaIndex a0 a1 a1 = 1 ∧ alphaIndex a0 a1 a0 = 0) ∧
  (∀ a0 a1 α α' : Nat, a1 < a0 → a0 ≤ 255 → a1 ≤ α → α ≤ α' → α' ≤ a0 →
    alphaBucket a0 a1 α ≤ alphaBucket a0 a1 α') ∧
  (∀ a0 a1 α q : Nat, a1 < a0 → a0 ≤ 255 → a1 ≤ α → α ≤ a0 →
    (alphaBucket a0 a1 α = q ↔
      q * (10000 * (a0 - a1)) ≤ 79999 * (α - a1) ∧ 79999 * (α - a1) < (q + 1) * (10000 * (a0 - a1)))) ∧
  ∀ a α : Nat, alphaIndex a a α ≠ 6 ∧ alphaIndex a a α ≠ 7

/-- 43_alpha.md §2: the binary32 reading of the literal 7.9999 gives the same bucket for every pair, and the scaled
distance is never an integer. -/
def Obligations.AlphaScaleReadingsAgree : Prop :=
  ∀ a0 a1 α : Nat, a1 < a0 → a0 ≤ 255 → a1 ≤ α → α ≤ a0 →
    alphaBucket a0 a1 α = (8388503 * (α - a1)) / (1048576 * (a0 - a1)) ∧
    (a1 < α → ¬ (10000 * (a0 - a1) ∣ 79999 * (α - a1)))

/-- R152 and R153, `bc3` is the `alpha` record followed by the `bc1` record. -/
def Obligations.Bc3IsAlphaThenBc1 : Prop :=
  ∀ s : State, s.rgbWritten = true → s.alphaWritten = true →
    ∃ t a b, exec .bc3 s = .next t ∧ exec .alpha s = .next a ∧ exec .bc1 s = .next b ∧
      (∀ j < 8, t.out j = a.out j ∧ t.out (8 + j) = b.out j) ∧ Status.olen t.status = 16 ∧
      Status.err t.status = Status.err s.status ∧ Status.ecode t.status = Status.ecode s.status ∧
      t.res = s.res ∧ t.arg = s.arg

/-! ### Invariants -/

/-- The state after reset is legal. -/
def Obligations.ResetIsLegal : Prop := Legal State.reset ∧ RecordLegal State.reset

/-- Every step keeps the state legal: the memory's canonical form, the legal values of `STATUS`, and `OUT` against
`OLEN`. -/
def Obligations.StepKeepsLegal : Prop := ∀ s t : State, Legal s → step s = .next t → Legal t

/-- Every step keeps the record in `OUT` one that the encoder can emit: endpoints ordered, and no index set between
equal endpoints. -/
def Obligations.StepKeepsRecordLegal : Prop := ∀ s t : State, RecordLegal s → step s = .next t → RecordLegal t

/-- In a legal state a step stops only on a command that reads an unwritten sample or a read of `OUT` before the first
record: the reserved ECODE is never seen, and nothing is refused. -/
def Obligations.LegalStepsStopOnlyOnUnspecifiedBytes : Prop :=
  ∀ s : State, Legal s →
    (∃ t, step s = .next t) ∨
    (step s = .fault .unwrittenSample ∧
      ∃ v rest i a, s.pending = .st .word 0x50 v :: rest ∧ decode v = .ok i ∧ readsWin i a = true ∧
        s.written a = false) ∨
    (step s = .fault .outUnspecified ∧ Status.olen s.status = 0 ∧
      ∃ w a rest, s.pending = .ld w a :: rest ∧ 0x40 ≤ a.toNat ∧ a.toNat ≤ 0x4F)

/-! ### The platform, the assembler and the host -/

/-- 60_exceptions.md §4, instances share nothing, and each starts at reset. That the instances step one at a time is the
model's choice (log 14), and so is the field `copy`, set aside here (log 22; the next statement is about it). -/
def Obligations.InstancesShareNothing : Prop :=
  (∀ n k, k < n → ∃ s, (Platform.reset n)[k]? = some s ∧ { s with copy := State.reset.copy } = State.reset) ∧
  ∀ (p q : Platform) (k : Nat), p.stepAt k = some q →
    q.length = p.length ∧ (∀ j, j ≠ k → q[j]? = p[j]?) ∧
    ∃ s t, p[k]? = some s ∧ step s = .next t ∧ q[k]? = some t

/-- 60_exceptions.md §4, no two instances share the bytes that reset leaves unspecified: the free value of an unwritten
byte is applied to the instance's number, no two instances have one number, and no step changes a number. That the free
values take such a number is the model's choice (log 2, 14, 22). -/
def Obligations.InstancesHaveTheirOwnUnspecifiedBytes : Prop :=
  (∀ (s : State) (a : Nat), s.written a = false → s.byteAt a = Config.unspecifiedByte s.copy s.resets a) ∧
  (∀ n, ((Platform.reset n).map State.copy).Nodup) ∧
  ∀ (p q : Platform) (k : Nat), p.stepAt k = some q → q.map State.copy = p.map State.copy

/-- 30_encoding.md §7, the pseudo-instruction `texel I, R, G, B, A` sets sample I and no other byte. -/
def Obligations.TexelLineSetsOneSample : Prop :=
  ∀ (s : State) (i : Fin 16) (r g b a : Byte),
    ∃ op t, (AsmLine.texel i r g b a).expand = [op] ∧ perform op s = .next t ∧
      t.rgb i = ⟨r, g, b⟩ ∧ t.alphaOf i = a ∧
      (∀ k < 4, t.written (4 * i + k) = true) ∧
      (∀ n, n < 4 * i.val ∨ 4 * i.val + 4 ≤ n → t.byteAt n = s.byteAt n ∧ t.written n = s.written n) ∧
      t.status = s.status ∧ t.arg = s.arg ∧ t.res = s.res

/-- 70_reset_and_hazards.md §3, the stream has exactly ceil(w/4) * ceil(h/4) * blockBytes bytes: so many bytes the loads
of the host's program read inside `OUT`, and from every state the program runs to its end and the words its reads return
make a stream of that length. That the run ends rests on every access completing, which is the model's reading of §4
(log 8, DEDUCED). -/
def Obligations.HostReadsTheWholeStream : Prop :=
  ∀ (img : Image) (f : Format) (ls : List AsmLine) (n : Nat), img.lines f = some ls →
    n = ((img.width + 3) / 4) * ((img.height + 3) / 4) * (if f = .bc1 then 8 else 16) →
    ((assemble ls).map fun op => match op with
      | .ld w a => if 0x40 ≤ a.toNat ∧ a.toNat + w.bytes ≤ 0x50 then w.bytes else 0
      | .st _ _ _ => 0
      | .reset => 0).sum = n ∧
    ∀ s : State, s.pending = assemble ls →
      ∃ t ws, Sys2Proof.core.run (assemble ls).length s = .next t ∧ t.pending = [] ∧
        t.returned = s.returned ++ ws ∧ (streamOf ws).length = n
end

