-- ==== Sys2Proof/Laws/State.lean ====
section
/-! SUPPORT. One lemma per field per update of `State`, so that no later proof unfolds a record update. -/

namespace Sys2Proof.Machine

section Raise
variable (s : State) (e : ErrorCode)
@[simp] theorem raise_mem : (s.raise e).mem = s.mem := rfl
@[simp] theorem raise_arg : (s.raise e).arg = s.arg := rfl
@[simp] theorem raise_res : (s.raise e).res = s.res := rfl
@[simp] theorem raise_status : (s.raise e).status = Status.raise s.status e := rfl
@[simp] theorem raise_pending : (s.raise e).pending = s.pending := rfl
@[simp] theorem raise_returned : (s.raise e).returned = s.returned := rfl
@[simp] theorem raise_resets : (s.raise e).resets = s.resets := rfl
@[simp] theorem raise_copy : (s.raise e).copy = s.copy := rfl
end Raise

section ClearError
variable (s : State)
@[simp] theorem clearError_mem : s.clearError.mem = s.mem := rfl
@[simp] theorem clearError_arg : s.clearError.arg = s.arg := rfl
@[simp] theorem clearError_res : s.clearError.res = s.res := rfl
@[simp] theorem clearError_status : s.clearError.status = Status.clear s.status := rfl
@[simp] theorem clearError_pending : s.clearError.pending = s.pending := rfl
@[simp] theorem clearError_returned : s.clearError.returned = s.returned := rfl
@[simp] theorem clearError_resets : s.clearError.resets = s.resets := rfl
@[simp] theorem clearError_copy : s.clearError.copy = s.copy := rfl
end ClearError

section PutRes
variable (s : State) (v : Word)
@[simp] theorem putRes_mem : (s.putRes v).mem = s.mem := rfl
@[simp] theorem putRes_arg : (s.putRes v).arg = s.arg := rfl
@[simp] theorem putRes_res : (s.putRes v).res = v := rfl
@[simp] theorem putRes_status : (s.putRes v).status = s.status := rfl
@[simp] theorem putRes_pending : (s.putRes v).pending = s.pending := rfl
@[simp] theorem putRes_returned : (s.putRes v).returned = s.returned := rfl
@[simp] theorem putRes_resets : (s.putRes v).resets = s.resets := rfl
@[simp] theorem putRes_copy : (s.putRes v).copy = s.copy := rfl
end PutRes

section PutArg
variable (s : State) (v : Word)
@[simp] theorem putArg_mem : (s.putArg v).mem = s.mem := rfl
@[simp] theorem putArg_arg : (s.putArg v).arg = v := rfl
@[simp] theorem putArg_res : (s.putArg v).res = s.res := rfl
@[simp] theorem putArg_status : (s.putArg v).status = s.status := rfl
@[simp] theorem putArg_pending : (s.putArg v).pending = s.pending := rfl
@[simp] theorem putArg_returned : (s.putArg v).returned = s.returned := rfl
@[simp] theorem putArg_resets : (s.putArg v).resets = s.resets := rfl
@[simp] theorem putArg_copy : (s.putArg v).copy = s.copy := rfl
end PutArg

section Give
variable (s : State) (v : Word)
@[simp] theorem give_mem : (s.give v).mem = s.mem := rfl
@[simp] theorem give_arg : (s.give v).arg = s.arg := rfl
@[simp] theorem give_res : (s.give v).res = s.res := rfl
@[simp] theorem give_status : (s.give v).status = s.status := rfl
@[simp] theorem give_pending : (s.give v).pending = s.pending := rfl
@[simp] theorem give_returned : (s.give v).returned = s.returned ++ [v] := rfl
@[simp] theorem give_resets : (s.give v).resets = s.resets := rfl
@[simp] theorem give_copy : (s.give v).copy = s.copy := rfl
end Give

section WriteLE
variable (s : State) (a n : Nat) (v : Word)
@[simp] theorem writeLE_mem : (s.writeLE a n v).mem = s.mem.storeAll a ((wordBytes v).take n) := rfl
@[simp] theorem writeLE_arg : (s.writeLE a n v).arg = s.arg := rfl
@[simp] theorem writeLE_res : (s.writeLE a n v).res = s.res := rfl
@[simp] theorem writeLE_status : (s.writeLE a n v).status = s.status := rfl
@[simp] theorem writeLE_pending : (s.writeLE a n v).pending = s.pending := rfl
@[simp] theorem writeLE_returned : (s.writeLE a n v).returned = s.returned := rfl
@[simp] theorem writeLE_resets : (s.writeLE a n v).resets = s.resets := rfl
@[simp] theorem writeLE_copy : (s.writeLE a n v).copy = s.copy := rfl
end WriteLE

section PutRecord
variable (s : State) (bs : List Byte) (n : BitVec 5)
@[simp] theorem putRecord_mem : (s.putRecord bs n).mem = s.mem.storeAll outBase bs := rfl
@[simp] theorem putRecord_arg : (s.putRecord bs n).arg = s.arg := rfl
@[simp] theorem putRecord_res : (s.putRecord bs n).res = s.res := rfl
@[simp] theorem putRecord_status : (s.putRecord bs n).status = Status.setOlen s.status n := rfl
@[simp] theorem putRecord_pending : (s.putRecord bs n).pending = s.pending := rfl
@[simp] theorem putRecord_returned : (s.putRecord bs n).returned = s.returned := rfl
@[simp] theorem putRecord_resets : (s.putRecord bs n).resets = s.resets := rfl
@[simp] theorem putRecord_copy : (s.putRecord bs n).copy = s.copy := rfl
end PutRecord

section ApplyReset
variable (s : State)
@[simp] theorem applyReset_mem : s.applyReset.mem = [] := rfl
@[simp] theorem applyReset_arg : s.applyReset.arg = 0 := rfl
@[simp] theorem applyReset_res : s.applyReset.res = 0 := rfl
@[simp] theorem applyReset_status : s.applyReset.status = 0 := rfl
@[simp] theorem applyReset_pending : s.applyReset.pending = s.pending := rfl
@[simp] theorem applyReset_returned : s.applyReset.returned = s.returned := rfl
@[simp] theorem applyReset_resets : s.applyReset.resets = s.resets + 1 := rfl
@[simp] theorem applyReset_copy : s.applyReset.copy = s.copy := rfl
end ApplyReset

/-- What is written, and every byte, depends on `mem` (and, where nothing is written, on which reset of which copy) alone. -/
theorem written_congr {s t : State} (h : s.mem = t.mem) (a : Nat) : s.written a = t.written a := by
  simp [State.written, h]

theorem byteAt_congr {s t : State} (h : s.mem = t.mem) (hr : s.resets = t.resets) (hc : s.copy = t.copy) (a : Nat) :
    s.byteAt a = t.byteAt a := by
  simp [State.byteAt, h, hr, hc]

end Sys2Proof.Machine
end

