-- ==== Sys2Proof/Laws/Memory.lean ====
section
/-! SUPPORT. The laws of the port's memory: a byte after a store, and the canonical form, which every memory
operation keeps. -/

namespace Sys2Proof.Machine

@[simp] theorem byte?_nil (a : Nat) : Memory.byte? [] a = none := rfl

theorem byte?_store_self (m : Memory) (a : Nat) (v : Byte) : (m.store a v).byte? a = some v := by
  induction m with
  | nil => simp [Memory.store, Memory.byte?]
  | cons c rest ih =>
    obtain ⟨k, b⟩ := c
    unfold Memory.store
    split_ifs with h1 h2
    · simp [Memory.byte?]
    · simp [Memory.byte?]
    · simp [Memory.byte?, ih, Ne.symm h2]

theorem byte?_store_other (m : Memory) {a a' : Nat} (v : Byte) (h : a' ≠ a) :
    (m.store a v).byte? a' = m.byte? a' := by
  induction m with
  | nil => simp [Memory.store, Memory.byte?, h.symm]
  | cons c rest ih =>
    obtain ⟨k, b⟩ := c
    unfold Memory.store
    split_ifs with h1 h2
    · simp [Memory.byte?, h.symm]
    · subst h2; simp [Memory.byte?, h.symm]
    · simp [Memory.byte?, ih]

/-- A store of several bytes leaves every address outside them as it was. -/
theorem byte?_storeAll_outside (vs : List Byte) (m : Memory) (a a' : Nat)
    (h : a' < a ∨ a + vs.length ≤ a') : (m.storeAll a vs).byte? a' = m.byte? a' := by
  induction vs generalizing m a with
  | nil => rfl
  | cons v vs ih =>
    simp only [List.length_cons] at h
    rw [Memory.storeAll, ih _ _ (by omega), byte?_store_other _ _ (by omega)]

/-- After a store of several bytes, the `k`-th address holds the `k`-th byte. -/
theorem byte?_storeAll_inside (vs : List Byte) (m : Memory) (a k : Nat) (h : k < vs.length) :
    (m.storeAll a vs).byte? (a + k) = vs[k]? := by
  induction vs generalizing m a k with
  | nil => simp at h
  | cons v vs ih =>
    rw [Memory.storeAll]
    cases k with
    | zero => rw [byte?_storeAll_outside _ _ _ _ (by omega)]; simpa using byte?_store_self m a v
    | succ k =>
      have := ih (m.store a v) (a + 1) k (by simpa using h)
      rw [show a + (k + 1) = a + 1 + k by omega, this]; simp

theorem risingFrom_weaken {m : Memory} {lo lo' : Nat} (h : lo' ≤ lo) (hm : m.risingFrom lo = true) :
    m.risingFrom lo' = true := by
  cases m with
  | nil => rfl
  | cons c rest =>
    obtain ⟨k, b⟩ := c
    simp only [Memory.risingFrom, Bool.and_eq_true, decide_eq_true_eq] at *
    exact ⟨by omega, hm.2⟩

theorem risingFrom_store (m : Memory) (lo a : Nat) (v : Byte) (h : lo ≤ a) (hm : m.risingFrom lo = true) :
    (m.store a v).risingFrom lo = true := by
  induction m generalizing lo with
  | nil => simp [Memory.store, Memory.risingFrom, h]
  | cons c rest ih =>
    obtain ⟨k, b⟩ := c
    simp only [Memory.risingFrom, Bool.and_eq_true, decide_eq_true_eq] at hm
    unfold Memory.store
    split_ifs with h1 h2
    · simp only [Memory.risingFrom, Bool.and_eq_true, decide_eq_true_eq]
      exact ⟨h, by omega, hm.2⟩
    · subst h2; simp only [Memory.risingFrom, Bool.and_eq_true, decide_eq_true_eq]
      exact ⟨h, hm.2⟩
    · simp only [Memory.risingFrom, Bool.and_eq_true, decide_eq_true_eq]
      exact ⟨hm.1, ih (k + 1) (by omega) hm.2⟩

theorem all_store {p : Host.Cell → Bool} (m : Memory) (a : Nat) (v : Byte) (hv : p (a, v) = true)
    (hm : m.all p = true) : (m.store a v).all p = true := by
  induction m with
  | nil => simp [Memory.store, hv]
  | cons c rest ih =>
    obtain ⟨k, b⟩ := c
    simp only [List.all_cons, Bool.and_eq_true] at hm
    unfold Memory.store
    split_ifs
    · simp [hv, hm.1, hm.2]
    · simp [hv, hm.2]
    · simp [hm.1, ih hm.2]

/-- Storing a byte of `WIN` or `OUT` keeps the canonical form. -/
theorem wf_store (m : Memory) (a : Nat) (v : Byte) (ha : a < memEnd) (hm : m.wf = true) :
    (m.store a v).wf = true := by
  simp only [Memory.wf, Bool.and_eq_true] at *
  exact ⟨risingFrom_store m 0 a v (by omega) hm.1, all_store m a v (by simpa using ha) hm.2⟩

/-- Storing bytes of `WIN` or `OUT` keeps the canonical form. -/
theorem wf_storeAll (vs : List Byte) (m : Memory) (a : Nat) (ha : a + vs.length ≤ memEnd) (hm : m.wf = true) :
    (m.storeAll a vs).wf = true := by
  induction vs generalizing m a with
  | nil => exact hm
  | cons v vs ih =>
    simp only [List.length_cons] at ha
    exact ih _ _ (by omega) (wf_store m a v (by omega) hm)

/-- The memory after reset has the canonical form. -/
theorem reset_mem_wf : State.reset.mem.wf = true := rfl

/-- Nothing is listed below the first address. -/
theorem risingFrom_byte?_none {m : Memory} {lo a : Nat} (hm : m.risingFrom lo = true) (ha : a < lo) :
    m.byte? a = none := by
  induction m generalizing lo with
  | nil => rfl
  | cons c rest ih =>
    obtain ⟨k, b⟩ := c
    simp only [Memory.risingFrom, Bool.and_eq_true, decide_eq_true_eq] at hm
    rw [Memory.byte?, if_neg (by omega)]
    exact ih hm.2 (by omega)

/-- Two rising memories that read alike at every address are the same list. -/
theorem memory_ext_of_rising {m m' : Memory} {lo : Nat} (hm : m.risingFrom lo = true)
    (hm' : m'.risingFrom lo = true) (h : ∀ a, m.byte? a = m'.byte? a) : m = m' := by
  induction m generalizing m' lo with
  | nil =>
    cases m' with
    | nil => rfl
    | cons c rest => obtain ⟨k, b⟩ := c; have := h k; simp [Memory.byte?] at this
  | cons c rest ih =>
    obtain ⟨k, b⟩ := c
    simp only [Memory.risingFrom, Bool.and_eq_true, decide_eq_true_eq] at hm
    cases m' with
    | nil => have := h k; simp [Memory.byte?] at this
    | cons c' rest' =>
      obtain ⟨k', b'⟩ := c'
      simp only [Memory.risingFrom, Bool.and_eq_true, decide_eq_true_eq] at hm'
      have hk : k = k' := by
        rcases Nat.lt_trichotomy k k' with hlt | heq | hgt
        · have := h k
          rw [Memory.byte?, if_pos rfl, Memory.byte?, if_neg (by omega),
            risingFrom_byte?_none hm'.2 (by omega)] at this
          simp at this
        · exact heq
        · have := h k'
          rw [Memory.byte?, if_neg (by omega), risingFrom_byte?_none hm.2 (by omega), Memory.byte?,
            if_pos rfl] at this
          simp at this
      subst hk
      have hb : b = b' := by simpa [Memory.byte?] using h k
      subst hb
      have hrest : rest = rest' := ih hm.2 hm'.2 fun a => by
        by_cases hka : k = a
        · subst hka
          rw [risingFrom_byte?_none hm.2 (by omega), risingFrom_byte?_none hm'.2 (by omega)]
        · simpa [Memory.byte?, hka] using h a
      rw [hrest]

/-- Equal contents are equal data: the canonical form is canonical. -/
theorem memory_ext {m m' : Memory} (hm : m.wf = true) (hm' : m'.wf = true)
    (h : ∀ a, m.byte? a = m'.byte? a) : m = m' := by
  simp only [Memory.wf, Bool.and_eq_true] at hm hm'
  exact memory_ext_of_rising hm.1 hm'.1 h

end Sys2Proof.Machine
end

