-- ==== Sys2Proof/Laws/Status.lean ====
section
/-! SUPPORT. The fields of `STATUS` after each of its updates. -/

namespace Sys2Proof.Machine

section Fields
variable (st : Word) (b : Bool) (c : BitVec 3) (n : BitVec 5)

@[simp] theorem err_setErr : Status.err (Status.setErr st b) = b := by
  simp [Status.err, Status.setErr]

@[simp] theorem err_setEcode : Status.err (Status.setEcode st c) = Status.err st := by
  simp [Status.err, Status.setEcode]

@[simp] theorem err_setOlen : Status.err (Status.setOlen st n) = Status.err st := by
  simp [Status.err, Status.setOlen]

@[simp] theorem ecode_setErr : Status.ecode (Status.setErr st b) = Status.ecode st := by
  apply BitVec.eq_of_getLsbD_eq
  intro i hi
  have : i = 0 ∨ i = 1 ∨ i = 2 := by omega
  rcases this with rfl | rfl | rfl <;> simp [Status.ecode, Status.setErr]

@[simp] theorem ecode_setEcode : Status.ecode (Status.setEcode st c) = c := by
  apply BitVec.eq_of_getLsbD_eq
  intro i hi
  have : i = 0 ∨ i = 1 ∨ i = 2 := by omega
  rcases this with rfl | rfl | rfl <;> simp [Status.ecode, Status.setEcode]

@[simp] theorem ecode_setOlen : Status.ecode (Status.setOlen st n) = Status.ecode st := by
  apply BitVec.eq_of_getLsbD_eq
  intro i hi
  have : i = 0 ∨ i = 1 ∨ i = 2 := by omega
  rcases this with rfl | rfl | rfl <;> simp [Status.ecode, Status.setOlen]

@[simp] theorem olen_setErr : Status.olen (Status.setErr st b) = Status.olen st := by
  apply BitVec.eq_of_getLsbD_eq
  intro i hi
  have : i = 0 ∨ i = 1 ∨ i = 2 ∨ i = 3 ∨ i = 4 := by omega
  rcases this with rfl | rfl | rfl | rfl | rfl <;> simp [Status.olen, Status.setErr]

@[simp] theorem olen_setEcode : Status.olen (Status.setEcode st c) = Status.olen st := by
  apply BitVec.eq_of_getLsbD_eq
  intro i hi
  have : i = 0 ∨ i = 1 ∨ i = 2 ∨ i = 3 ∨ i = 4 := by omega
  rcases this with rfl | rfl | rfl | rfl | rfl <;> simp [Status.olen, Status.setEcode]

@[simp] theorem olen_setOlen : Status.olen (Status.setOlen st n) = n := by
  apply BitVec.eq_of_getLsbD_eq
  intro i hi
  have : i = 0 ∨ i = 1 ∨ i = 2 ∨ i = 3 ∨ i = 4 := by omega
  rcases this with rfl | rfl | rfl | rfl | rfl <;> simp [Status.olen, Status.setOlen]

@[simp] theorem reservedBits_setErr :
    Status.setErr st b &&& ~~~Status.definedBits = st &&& ~~~Status.definedBits := by
  apply BitVec.eq_of_getLsbD_eq
  intro i hi
  interval_cases i <;> simp [Status.setErr, Status.definedBits]

@[simp] theorem reservedBits_setEcode :
    Status.setEcode st c &&& ~~~Status.definedBits = st &&& ~~~Status.definedBits := by
  apply BitVec.eq_of_getLsbD_eq
  intro i hi
  interval_cases i <;> simp [Status.setEcode, Status.definedBits]

@[simp] theorem reservedBits_setOlen :
    Status.setOlen st n &&& ~~~Status.definedBits = st &&& ~~~Status.definedBits := by
  apply BitVec.eq_of_getLsbD_eq
  intro i hi
  interval_cases i <;> simp [Status.setOlen, Status.definedBits]

end Fields

/-- Everything `raise` can do to `STATUS` (R173). -/
theorem status_raise_cases (st : Word) (e : ErrorCode) :
    (Status.err st = true ∧ Status.raise st e = st) ∨
      (Status.err st = false ∧ Status.err (Status.raise st e) = true ∧
        Status.ecode (Status.raise st e) = e.code ∧ Status.olen (Status.raise st e) = Status.olen st) := by
  unfold Status.raise
  cases h : Status.err st <;> simp [h]

@[simp] theorem olen_raise (st : Word) (e : ErrorCode) : Status.olen (Status.raise st e) = Status.olen st := by
  unfold Status.raise
  split <;> simp

@[simp] theorem err_raise (st : Word) (e : ErrorCode) : Status.err (Status.raise st e) = true := by
  unfold Status.raise
  split <;> simp [*]

@[simp] theorem err_clear (st : Word) : Status.err (Status.clear st) = false := by simp [Status.clear]

@[simp] theorem ecode_clear (st : Word) : Status.ecode (Status.clear st) = 0 := by simp [Status.clear]

@[simp] theorem olen_clear (st : Word) : Status.olen (Status.clear st) = Status.olen st := by simp [Status.clear]

/-- Recording an error changes `STATUS` only in bits 3:0. -/
theorem highBits_raise (st : Word) (e : ErrorCode) :
    Status.raise st e &&& ~~~0x0000000F#32 = st &&& ~~~0x0000000F#32 := by
  unfold Status.raise
  split
  · rfl
  · apply BitVec.eq_of_getLsbD_eq
    intro i hi
    interval_cases i <;> simp [Status.setErr, Status.setEcode]

/-- Clearing the error changes `STATUS` only in bits 3:0. -/
theorem highBits_clear (st : Word) : Status.clear st &&& ~~~0x0000000F#32 = st &&& ~~~0x0000000F#32 := by
  apply BitVec.eq_of_getLsbD_eq
  intro i hi
  interval_cases i <;> simp [Status.clear, Status.setErr, Status.setEcode]

/-- Writing `OLEN` changes no other bit of `STATUS`. -/
theorem otherBits_setOlen (st : Word) (n : BitVec 5) :
    Status.setOlen st n &&& ~~~0x00001F00#32 = st &&& ~~~0x00001F00#32 := by
  apply BitVec.eq_of_getLsbD_eq
  intro i hi
  interval_cases i <;> simp [Status.setOlen]

@[simp] theorem reservedBits_raise (st : Word) (e : ErrorCode) :
    Status.raise st e &&& ~~~Status.definedBits = st &&& ~~~Status.definedBits := by
  unfold Status.raise
  split <;> simp

@[simp] theorem reservedBits_clear (st : Word) :
    Status.clear st &&& ~~~Status.definedBits = st &&& ~~~Status.definedBits := by simp [Status.clear]

end Sys2Proof.Machine
end

