-- ==== Sys2Proof/Laws/Commands.lean ====
section
/-! SUPPORT. Everything a command can do: its completion and its one inversion lemma, cited in place of unfolding
`exec`. -/

namespace Sys2Proof.Machine

@[simp] theorem whenWritten_true (t : State) : whenWritten true t = .next t := rfl

@[simp] theorem whenWritten_false (t : State) : whenWritten false t = .fault .unwrittenSample := rfl

/-- A command that reads `WIN` completes exactly when what it reads has been written. -/
theorem whenWritten_eq_next {b : Bool} {t u : State} : whenWritten b t = .next u ↔ b = true ∧ u = t := by
  cases b <;> simp [eq_comm]

@[simp] theorem wordBytes_length (w : Word) : (wordBytes w).length = 4 := rfl

@[simp] theorem zeroTail_length : zeroTail.length = 8 := rfl

@[simp] theorem colorBlock_length (ss : List Rgb) : (colorBlock ss).length = 8 := rfl

@[simp] theorem alphaBlock_length (as : List Byte) : (alphaBlock as).length = 8 := rfl

section Equations
variable (s : State)

theorem exec_nop : exec .nop s = .next s := rfl

theorem exec_pack : exec .pack s =
    .next (s.putRes ((pack565 (argRed s.arg) (argGreen s.arg) (argBlue s.arg)).setWidth 32)) := rfl

theorem exec_unpack : exec .unpack s = .next (s.putRes (0#8 ++ (unpack565 (argLow s.arg)).b ++
    (unpack565 (argLow s.arg)).g ++ (unpack565 (argLow s.arg)).r)) := rfl

theorem exec_fit (h : s.rgbWritten = true) :
    exec .fit s = .next (s.putRes ((fitLine s.rgbSamples).2 ++ (fitLine s.rgbSamples).1)) := by
  simp [exec, execFit, h]

theorem exec_cindex (h : s.rgbWritten = true) :
    exec .cindex s = .next (s.putRes (colorIndices s.rgbSamples (argLow s.arg) (argHigh s.arg))) := by
  simp [exec, execCindex, h]

theorem exec_alpha (h : s.alphaWritten = true) :
    exec .alpha s = .next (s.putRecord (alphaBlock s.alphaSamples ++ zeroTail) 8) := by
  simp [exec, execAlpha, h]

theorem exec_bc1 (h : s.rgbWritten = true) :
    exec .bc1 s = .next (s.putRecord (colorBlock s.rgbSamples ++ zeroTail) 8) := by
  simp [exec, execBc1, h]

theorem exec_bc3 (h : s.rgbWritten = true) (h' : s.alphaWritten = true) :
    exec .bc3 s = .next (s.putRecord (alphaBlock s.alphaSamples ++ colorBlock s.rgbSamples) 16) := by
  simp [exec, execBc3, h, h']

theorem exec_reserved (op : BitVec 4) : exec (.reserved op) s = .next (s.raise .illegalOp) := rfl

end Equations

/-- The samples depend on the memory (and on which reset of which copy, for the unwritten bytes) alone: `ARG`, `RES` and `STATUS` do not reach them. -/
theorem rgb_congr {s t : State} (hm : s.mem = t.mem) (hr : s.resets = t.resets) (hc : s.copy = t.copy) (i : Nat) :
    s.rgb i = t.rgb i := by
  simp [State.rgb, byteAt_congr hm hr hc]

theorem rgbSamples_congr {s t : State} (hm : s.mem = t.mem) (hr : s.resets = t.resets) (hc : s.copy = t.copy) :
    s.rgbSamples = t.rgbSamples := by
  simp [State.rgbSamples, funext (rgb_congr hm hr hc)]

theorem rgbWritten_congr {s t : State} (hm : s.mem = t.mem) : s.rgbWritten = t.rgbWritten := by
  simp [State.rgbWritten, written_congr hm]

theorem alphaSamples_congr {s t : State} (hm : s.mem = t.mem) (hr : s.resets = t.resets) (hc : s.copy = t.copy) :
    s.alphaSamples = t.alphaSamples := by
  simp [State.alphaSamples, State.alphaOf, byteAt_congr hm hr hc]

theorem alphaWritten_congr {s t : State} (hm : s.mem = t.mem) : s.alphaWritten = t.alphaWritten := by
  simp [State.alphaWritten, written_congr hm]

/-- Everything a command can do when it answers a next state: nothing, a new `RES`, a new record of 16 bytes with its
length, or the recorded ILLEGAL_OP. -/
theorem exec_cases {i : Instr} {s t : State} (h : exec i s = .next t) :
    (i = .nop ∧ t = s) ∨
    (∃ v, (i = .pack ∨ i = .unpack ∨ i = .fit ∨ i = .cindex) ∧ t = s.putRes v) ∨
    (i = .alpha ∧ t = s.putRecord (alphaBlock s.alphaSamples ++ zeroTail) 8) ∨
    (i = .bc1 ∧ t = s.putRecord (colorBlock s.rgbSamples ++ zeroTail) 8) ∨
    (i = .bc3 ∧ t = s.putRecord (alphaBlock s.alphaSamples ++ colorBlock s.rgbSamples) 16) ∨
    (∃ op, i = .reserved op ∧ t = s.raise .illegalOp) := by
  cases i with
  | nop => simp [exec, execNop] at h; simp [h]
  | pack => simp [exec, execPack] at h; exact .inr (.inl ⟨_, by simp, h.symm⟩)
  | unpack => simp [exec, execUnpack] at h; exact .inr (.inl ⟨_, by simp, h.symm⟩)
  | fit => exact .inr (.inl ⟨_, by simp, (whenWritten_eq_next.1 h).2⟩)
  | cindex => exact .inr (.inl ⟨_, by simp, (whenWritten_eq_next.1 h).2⟩)
  | alpha => simp [(whenWritten_eq_next.1 h).2]
  | bc1 => simp [(whenWritten_eq_next.1 h).2]
  | bc3 => simp [(whenWritten_eq_next.1 h).2]
  | reserved op => simp [exec, execReserved] at h; simp [h]

/-- A command whose samples have been written answers a next state. -/
theorem exec_completes (i : Instr) (s : State) (h : ready i s = true) : ∃ t, exec i s = .next t := by
  cases i <;> simp only [ready] at h <;>
    simp [exec, execNop, execPack, execUnpack, execFit, execCindex, execAlpha, execBc1, execBc3, execReserved, h]

/-- A command that reads a byte nothing has written stops with `unwrittenSample` (R37). -/
theorem exec_faults (i : Instr) (s : State) (h : ready i s = false) : exec i s = .fault .unwrittenSample := by
  cases i <;> simp only [ready] at h <;>
    simp_all [exec, execFit, execCindex, execAlpha, execBc1, execBc3, whenWritten]

/-- No command is refused. -/
theorem exec_not_refused (i : Instr) (s : State) (r : Refusal) : exec i s ≠ .refused r := by
  cases h : ready i s with
  | true => obtain ⟨t, ht⟩ := exec_completes i s h; simp [ht]
  | false => simp [exec_faults i s h]

end Sys2Proof.Machine
end

