-- ==== Sys2Proof/Laws/Decode.lean ====
section
/-! SUPPORT. The command word's two fields as numbers, and the byte form of a word. -/

namespace Sys2Proof

/-- The four bytes of a word, put back together, are the word (R46). -/
theorem wordBytes_append (v : Word) :
    v.extractLsb' 24 8 ++ v.extractLsb' 16 8 ++ v.extractLsb' 8 8 ++ v.extractLsb' 0 8 = v := by
  apply BitVec.eq_of_getLsbD_eq
  intro i hi
  simp only [BitVec.getLsbD_append, BitVec.getLsbD_extractLsb']
  have hi : i < 32 := hi
  interval_cases i <;> simp

theorem decodeBytes_wordBytes (v : Word) : decodeBytes (wordBytes v) = decode v := by
  simp only [wordBytes, decodeBytes]
  rw [wordBytes_append]

theorem rsvField_eq_zero_iff (v : Word) : rsvField v = 0 ↔ v.toNat < 16 := by
  rw [← BitVec.toNat_inj]
  simp [rsvField, BitVec.extractLsb'_toNat, Nat.shiftRight_eq_div_pow]
  have := v.isLt
  omega

theorem opField_toNat (v : Word) : (opField v).toNat = v.toNat % 16 := by
  simp [opField, BitVec.extractLsb'_toNat]

/-- Opcodes 0x8 to 0xF are the reserved range (R63). -/
theorem decodeOp_reserved {op : BitVec 4} (h : 8 ≤ op.toNat) : decodeOp op = .reserved op := by
  unfold decodeOp
  split <;> first | (exfalso; omega) | rfl

/-- Everything the decoder can answer. -/
theorem decode_eq_ok_iff {v : Word} {i : Instr} :
    decode v = .ok i ↔ v.toNat < 16 ∧ decodeOp (opField v) = i := by
  rw [← rsvField_eq_zero_iff]
  unfold decode
  split <;> simp_all

end Sys2Proof
end

