-- ==== Sys2Proof/Laws/Port.lean ====
section
/-! SUPPORT. Everything a port access and a step can do, said once. -/

namespace Sys2Proof.Machine

theorem decode_ok {v : Word} {i : Instr} (h : decode v = .ok i) : rsvField v = 0 ∧ i = decodeOp (opField v) := by
  unfold decode at h
  split at h
  · simp at h
  · rename_i hr; exact ⟨by simpa using hr, by simpa using h.symm⟩

/-- A command word: either RSVD_BITS is recorded, or the decoded command runs (R66). -/
theorem execute_cases {v : Word} {s t : State} (h : execute v s = .next t) :
    (rsvField v ≠ 0 ∧ t = s.raise .rsvdBits) ∨ (∃ i, decode v = .ok i ∧ exec i s = .next t) := by
  unfold execute at h
  split at h
  · rename_i e he
    refine .inl ⟨fun h0 => ?_, by simpa using h.symm⟩
    simp [decode, h0] at he
  · rename_i i hi; exact .inr ⟨i, hi, h⟩

/-- A word that is none of the eight commands records one error and does nothing else (R62, R63). -/
theorem execute_illegal {v : Word} (s : State) (h : 8 ≤ v.toNat) :
    execute v s = .next (s.raise (if v.toNat < 16 then .illegalOp else .rsvdBits)) := by
  unfold execute decode
  by_cases hr : v.toNat < 16
  · have h8 : 8 ≤ (opField v).toNat := by rw [opField_toNat]; omega
    simp [(rsvField_eq_zero_iff v).2 hr, decodeOp_reserved h8, exec, execReserved, hr]
  · have : rsvField v ≠ 0 := fun h0 => hr ((rsvField_eq_zero_iff v).1 h0)
    simp only [if_pos this, if_neg hr]

/-- Everything a read can do: it returns one value, and an illegal one records BAD_ACCESS. -/
theorem memRead_cases {a : BitVec 8} {w : Width} {s t : State} (h : memRead a w s = .next t) :
    (legalRead a w = false ∧ t = (s.raise .badAccess).give 0) ∨ (legalRead a w = true ∧ ∃ v, t = s.give v) := by
  unfold memRead at h
  split at h
  · rename_i hl; exact .inl ⟨hl, by simpa using h.symm⟩
  · rename_i hl
    refine .inr ⟨by simpa using hl, ?_⟩
    repeat' split at h
    all_goals first
      | exact ⟨_, by simpa using h.symm⟩
      | simp at h

/-- A legal write to `WIN` stays inside `WIN`. -/
theorem legalWrite_window {a : BitVec 8} {w : Width} (h : legalWrite a w = true) (ha : a.toNat ≤ 0x3F) :
    a.toNat + w.bytes ≤ outBase := by
  simp only [legalWrite, Bool.and_eq_true, Bool.or_eq_true, decide_eq_true_eq, List.mem_cons, List.not_mem_nil,
    or_false] at h
  unfold outBase
  rcases h.2 with h | ⟨h, -⟩
  · have : 1 ≤ w.bytes := by cases w <;> simp [Width.bytes]
    omega
  · rcases h with rfl | rfl | rfl <;> simp [cmdAddr, argAddr, statusAddr] at ha

/-- Everything a write can do. -/
theorem memWrite_cases {a : BitVec 8} {w : Width} {v : Word} {s t : State} (h : memWrite a w v s = .next t) :
    (legalWrite a w = false ∧ t = s.raise .badAccess) ∨
    (a.toNat + w.bytes ≤ outBase ∧ t = s.writeLE a.toNat w.bytes v) ∨
    (a = cmdAddr ∧ execute v s = .next t) ∨
    (a = argAddr ∧ t = s.putArg v) ∨
    (v.getLsbD 0 = true ∧ t = s.clearError) ∨
    (v.getLsbD 0 = false ∧ t = s) := by
  unfold memWrite at h
  split at h
  · rename_i hl; exact .inl ⟨hl, by simpa using h.symm⟩
  · rename_i hl
    split at h
    · rename_i ha
      exact .inr (.inl ⟨legalWrite_window (by simpa using hl) ha, by simpa using h.symm⟩)
    · split at h
      · rename_i hc; exact .inr (.inr (.inl ⟨hc, h⟩))
      · split at h
        · rename_i hc; exact .inr (.inr (.inr (.inl ⟨hc, by simpa using h.symm⟩)))
        · split at h
          · rename_i hv; exact .inr (.inr (.inr (.inr (.inl ⟨hv, by simpa using h.symm⟩))))
          · rename_i hv
            exact .inr (.inr (.inr (.inr (.inr ⟨by simpa using hv, by simpa using h.symm⟩))))

/-- A command leaves the model's own fields as they are. -/
theorem exec_own {i : Instr} {s t : State} (h : exec i s = .next t) :
    t.pending = s.pending ∧ t.returned = s.returned ∧ t.resets = s.resets ∧ t.copy = s.copy := by
  rcases exec_cases h with ⟨-, rfl⟩ | ⟨v, -, rfl⟩ | ⟨-, rfl⟩ | ⟨-, rfl⟩ | ⟨-, rfl⟩ | ⟨op, -, rfl⟩ <;> simp

/-- So does a write, of a command word or of any other. -/
theorem memWrite_own {a : BitVec 8} {w : Width} {v : Word} {s t : State} (h : memWrite a w v s = .next t) :
    t.pending = s.pending ∧ t.returned = s.returned ∧ t.resets = s.resets ∧ t.copy = s.copy := by
  rcases memWrite_cases h with ⟨-, rfl⟩ | ⟨-, rfl⟩ | ⟨-, h⟩ | ⟨-, rfl⟩ | ⟨-, rfl⟩ | ⟨-, rfl⟩ <;> try simp
  rcases execute_cases h with ⟨-, rfl⟩ | ⟨i, -, h⟩
  · simp
  · exact exec_own h

@[simp] theorem step_idle {s : State} (h : s.pending = []) : step s = .next s := by simp [step, h]

/-- A step performs the oldest pending access (R52). -/
theorem step_pending {s : State} {op : PortOp} {rest : List PortOp} (h : s.pending = op :: rest) :
    step s = perform op { s with pending := rest } := by simp [step, h]

/-- Everything a step can do, by the effect on the state `u` that has dropped the access. -/
theorem step_cases {s t : State} (h : step s = .next t) :
    (s.pending = [] ∧ t = s) ∨
    ∃ op rest, s.pending = op :: rest ∧
      ((∃ w a, op = .ld w a ∧ memRead a w { s with pending := rest } = .next t) ∨
       (∃ w a v, op = .st w a v ∧ memWrite a w v { s with pending := rest } = .next t) ∨
       (op = .reset ∧ t = State.applyReset { s with pending := rest })) := by
  cases hp : s.pending with
  | nil => simp [step, hp] at h; exact .inl ⟨rfl, h.symm⟩
  | cons op rest =>
    refine .inr ⟨op, rest, rfl, ?_⟩
    rw [step_pending hp] at h
    cases op with
    | ld w a => exact .inl ⟨w, a, rfl, h⟩
    | st w a v => exact .inr (.inl ⟨w, a, v, rfl, h⟩)
    | reset => exact .inr (.inr ⟨rfl, by simpa [perform] using h.symm⟩)

/-- No step changes which copy of the block this is. -/
theorem step_copy {s t : State} (h : step s = .next t) : t.copy = s.copy := by
  rcases step_cases h with ⟨-, rfl⟩ | ⟨op, rest, -, ⟨w, a, -, h⟩ | ⟨w, a, v, -, h⟩ | ⟨-, rfl⟩⟩
  · rfl
  · rcases memRead_cases h with ⟨-, rfl⟩ | ⟨-, v, rfl⟩ <;> simp
  · simpa using (memWrite_own h).2.2.2
  · simp

/-- The word placed for the fetch is the next access performed, and it reaches `Execute` whole (R66). -/
theorem step_withFetchWord (s : State) (nbits w : Nat) :
    step (s.withFetchWord nbits w) = execute (BitVec.ofNat 32 (w % 2 ^ nbits)) s := by
  simp [step, State.withFetchWord, perform, memWrite, legalWrite, aligned, cmdAddr, Width.bytes, argAddr, statusAddr]

end Sys2Proof.Machine
end

