-- ==== Sys2Proof/Laws/Bytes.lean ====
section
/-! SUPPORT. Byte order and records: what a port read of several bytes returns, and what `OUT` holds after a record. -/

namespace Sys2Proof.Machine

/-- Byte `k` of an assembled word is the `k`-th byte, least significant first (R46). -/
theorem extract_leWord (bs : List Byte) (k : Nat) (hk : k < bs.length) (h4 : bs.length ≤ 4) :
    (leWord bs).extractLsb' (8 * k) 8 = bs[k] := by
  induction bs generalizing k with
  | nil => simp at hk
  | cons b bs ih =>
    simp only [List.length_cons] at hk h4
    apply BitVec.eq_of_getLsbD_eq
    intro i hi
    cases k with
    | zero =>
      simp [leWord, hi, show i < 32 by omega]
    | succ k =>
      have := ih k (by omega) (by omega)
      have hb := congrArg (fun x => x.getLsbD i) this
      simp only [BitVec.getLsbD_extractLsb', hi, decide_true, Bool.true_and] at hb
      have h1 : 8 * (k + 1) + i < 32 := by omega
      have h2 : ¬ 8 * (k + 1) + i < 8 := by omega
      have h3 : 8 * (k + 1) + i - 8 = 8 * k + i := by omega
      rw [BitVec.getLsbD_eq_getElem (by omega), BitVec.getLsbD_eq_getElem hi] at hb
      simp [leWord, hi, h1, h2, h3, hb, BitVec.getLsbD_of_ge b (8 * (k + 1) + i) (by omega)]

/-- Byte `k` of a port read of `n` bytes (R45). -/
theorem extract_readLE (s : State) (a n k : Nat) (hk : k < n) (hn : n ≤ 4) :
    (s.readLE a n).extractLsb' (8 * k) 8 = s.byteAt (a + k) := by
  unfold State.readLE
  rw [extract_leWord _ k (by simpa using hk) (by simpa using hn)]
  simp

/-- Assembling the four bytes of a word gives the word. -/
theorem leWord_wordBytes (v : Word) : leWord (wordBytes v) = v := by
  apply BitVec.eq_of_getLsbD_eq
  intro i hi
  simp only [leWord, wordBytes]
  interval_cases i <;> simp

/-- A packed color is its high byte and its low byte (R68). -/
theorem half_bytes (c : Half) : c.extractLsb' 8 8 ++ c.extractLsb' 0 8 = c := by
  apply BitVec.eq_of_getLsbD_eq
  intro i hi
  simp only [BitVec.getLsbD_append, BitVec.getLsbD_extractLsb']
  have hi : i < 16 := hi
  interval_cases i <;> simp

/-- The low half of a pair is its second component: color0 of `{color1, color0}` (R65). -/
@[simp] theorem append_low (c1 c0 : Half) : (c1 ++ c0).extractLsb' 0 16 = c0 := by
  apply BitVec.eq_of_getLsbD_eq
  intro i hi
  simp only [BitVec.getLsbD_append, BitVec.getLsbD_extractLsb']
  interval_cases i <;> simp

/-- The high half of a pair is its first component: color1 of `{color1, color0}` (R65). -/
@[simp] theorem append_high (c1 c0 : Half) : (c1 ++ c0).extractLsb' 16 16 = c1 := by
  apply BitVec.eq_of_getLsbD_eq
  intro i hi
  simp only [BitVec.getLsbD_append, BitVec.getLsbD_extractLsb']
  interval_cases i <;> simp

/-- Two words with the same four bytes are the same word. -/
theorem word_ext_bytes {x y : Word} (h : ∀ k < 4, x.extractLsb' (8 * k) 8 = y.extractLsb' (8 * k) 8) : x = y := by
  rw [← wordBytes_append x, ← wordBytes_append y]
  have h0 := h 0 (by omega)
  have h1 := h 1 (by omega)
  have h2 := h 2 (by omega)
  have h3 := h 3 (by omega)
  simp only [Nat.mul_zero, Nat.mul_one, Nat.reduceMul] at h0 h1 h2 h3
  rw [h0, h1, h2, h3]

/-- `OUT` after a record of 16 bytes: each byte is the record's. -/
theorem out_putRecord (s : State) (bs : List Byte) (n : BitVec 5) (j : Nat) (hj : j < bs.length) :
    (s.putRecord bs n).out j = bs[j] := by
  simp [State.out, State.byteAt, byte?_storeAll_inside _ _ _ _ hj, List.getElem?_eq_getElem hj]

theorem written_putRecord (s : State) (bs : List Byte) (n : BitVec 5) (j : Nat) (hj : j < bs.length) :
    (s.putRecord bs n).written (outBase + j) = true := by
  simp [State.written, byte?_storeAll_inside _ _ _ _ hj, List.getElem?_eq_getElem hj]

/-- A record changes no byte outside `OUT`. -/
theorem byte?_putRecord_outside (s : State) (bs : List Byte) (n : BitVec 5) (a : Nat)
    (h : a < outBase ∨ outBase + bs.length ≤ a) : (s.putRecord bs n).mem.byte? a = s.mem.byte? a := by
  simp [byte?_storeAll_outside _ _ _ _ h]

/-- A port write of `n` bytes: each addressed byte is the value's. -/
theorem byteAt_writeLE_inside (s : State) (a n k : Nat) (v : Word) (hk : k < n) (hn : n ≤ 4) :
    (s.writeLE a n v).byteAt (a + k) = v.extractLsb' (8 * k) 8 := by
  have hl : k < ((wordBytes v).take n).length := by simp; omega
  simp only [State.byteAt, writeLE_mem, byte?_storeAll_inside _ _ _ _ hl]
  have : k = 0 ∨ k = 1 ∨ k = 2 ∨ k = 3 := by omega
  rcases this with rfl | rfl | rfl | rfl <;> simp [hk, wordBytes]

/-- A port write of `n` bytes changes no other byte. -/
theorem byte?_writeLE_outside (s : State) (a n a' : Nat) (v : Word) (hn : n ≤ 4) (h : a' < a ∨ a + n ≤ a') :
    (s.writeLE a n v).mem.byte? a' = s.mem.byte? a' := by
  simp only [writeLE_mem]
  apply byte?_storeAll_outside
  simp
  omega

end Sys2Proof.Machine
end

