-- ==== Sys2Proof/Laws/HostLoop.lean ====
section
/-! SUPPORT. What the pieces of the host's program do when they run: each completes, returns a known number of words,
and leaves what the next piece needs. -/

namespace Sys2Proof.Machine

/-- The first of `n + 1` steps. -/
theorem run_succ (n : Nat) {s t : State} (h : step s = .next t) :
    Sys2Proof.core.run (n + 1) s = Sys2Proof.core.run n t := by
  have h' : Sys2Proof.core.step s = .next t := h
  simp only [Host.Core.run, h']

/-- A run of `m + n` steps is a run of `n` steps from where `m` steps lead. -/
theorem run_add {m n : Nat} {s t : State} (h : Sys2Proof.core.run m s = .next t) :
    Sys2Proof.core.run (m + n) s = Sys2Proof.core.run n t := by
  induction m generalizing s with
  | zero => simp only [Host.Core.run] at h; cases h; simp
  | succ m ih =>
    rw [Nat.add_right_comm]
    simp only [Host.Core.run] at h ⊢
    split at h
    · exact ih h
    all_goals simp at h

/-- From every state with `Pre`, the accesses `ops` at the head of the pending ones complete, return `k` words and leave
a state with `Post`. -/
def Runs (Pre : State → Prop) (ops : List PortOp) (k : Nat) (Post : State → Prop) : Prop :=
  ∀ (s : State) (rest : List PortOp), Pre s → s.pending = ops ++ rest → ∃ t ws,
    Sys2Proof.core.run ops.length s = .next t ∧ t.pending = rest ∧ t.returned = s.returned ++ ws ∧ ws.length = k ∧ Post t

theorem Runs.append {P Q R : State → Prop} {ops ops' : List PortOp} {k k' : Nat} (h : Runs P ops k Q)
    (h' : Runs Q ops' k' R) : Runs P (ops ++ ops') (k + k') R := by
  intro s rest hP hp
  obtain ⟨t, ws, hr, ht, he, hl, hQ⟩ := h s (ops' ++ rest) hP (by simp [hp])
  obtain ⟨u, ws', hr', hu, he', hl', hR⟩ := h' t rest hQ ht
  exact ⟨u, ws ++ ws', by rw [List.length_append, run_add hr, hr'], hu, by simp [he', he], by simp [hl, hl'], hR⟩

theorem Runs.nil {P : State → Prop} : Runs P [] 0 P :=
  fun s _ hP hp => ⟨s, [], rfl, by simpa using hp, by simp, rfl, hP⟩

/-- One access, when `Pre` does not look at the pending ones. -/
theorem Runs.one {P Q : State → Prop} {op : PortOp} {k : Nat} (hP : ∀ s r, P s → P { s with pending := r })
    (h : ∀ s, P s → ∃ t ws, perform op s = .next t ∧ t.pending = s.pending ∧ t.returned = s.returned ++ ws ∧
      ws.length = k ∧ Q t) : Runs P [op] k Q := by
  intro s rest hs hp
  obtain ⟨t, ws, he, ht, hr, hl, hQ⟩ := h { s with pending := rest } (hP s rest hs)
  refine ⟨t, ws, ?_, ht, hr, hl, hQ⟩
  change Sys2Proof.core.run (0 + 1) s = _
  rw [run_succ 0 ((step_pending (by simpa using hp)).trans he)]
  rfl

/-- The four bytes of each listed sample have been written. -/
def Filled (is : List (Fin 16)) (s : State) : Prop := ∀ i ∈ is, ∀ k < 4, s.written (4 * i.val + k) = true

/-- A record is in `OUT`. -/
def HasRecord (s : State) : Prop := Status.olen s.status ≠ 0

theorem assemble_append (l l' : List AsmLine) : assemble (l ++ l') = assemble l ++ assemble l' := by simp [assemble]

/-- A texel line fills one more sample. -/
theorem texel_runs (is : List (Fin 16)) (i : Fin 16) (r g b a : Byte) :
    Runs (Filled is) (AsmLine.texel i r g b a).expand 0 (Filled (is ++ [i])) := by
  refine Runs.one (fun _ _ h => h) fun s hs => ⟨s.writeLE (4 * i.val) 4 (a ++ b ++ g ++ r), [], ?_, rfl, by simp, rfl, ?_⟩
  · fin_cases i <;> simp [perform, memWrite, legalWrite, aligned, Width.bytes]
  · intro j hj k hk
    simp only [State.written, writeLE_mem]
    by_cases h : j = i
    · subst h
      rw [byte?_storeAll_inside _ _ _ _ (by simpa using hk)]
      simp; exact hk
    · rw [byte?_storeAll_outside]
      · exact hs j (by simpa [h] using hj) k hk
      · have : j.val ≠ i.val := fun h' => h (Fin.ext h')
        simp; omega

/-- A list of texel lines fills its samples. -/
theorem texels_run (f : Fin 16 → Byte × Byte × Byte × Byte) (l is : List (Fin 16)) :
    Runs (Filled is) (assemble (l.map fun i => .texel i (f i).1 (f i).2.1 (f i).2.2.1 (f i).2.2.2)) 0
      (Filled (is ++ l)) := by
  induction l generalizing is with
  | nil => simpa [assemble] using Runs.nil
  | cons i l ih =>
    have := (texel_runs is i (f i).1 (f i).2.1 (f i).2.2.1 (f i).2.2.2).append (ih (is ++ [i]))
    simpa [assemble, Runs] using this

/-- With every sample filled the block command completes and leaves a record. -/
theorem command_runs (f : Format) :
    Runs (Filled (List.finRange 16)) (AsmLine.command f.command).expand 0 HasRecord := by
  refine Runs.one (fun _ _ h => h) fun s hs => ?_
  have hall : ∀ i < 16, ∀ k < 4, s.written (4 * i + k) = true :=
    fun i hi => hs ⟨i, hi⟩ (List.mem_finRange _)
  have hrgb : s.rgbWritten = true := by
    simp only [State.rgbWritten, List.all_eq_true, List.mem_range, Bool.and_eq_true, Config.sampleCount]
    exact fun i hi => ⟨⟨hall i hi 0 (by omega), hall i hi 1 (by omega)⟩, hall i hi 2 (by omega)⟩
  have halpha : s.alphaWritten = true := by
    simp only [State.alphaWritten, List.all_eq_true, List.mem_range, Config.sampleCount]
    exact fun i hi => hall i hi 3 (by omega)
  cases f
  · refine ⟨_, [], exec_bc1 s hrgb, ?_, ?_, rfl, ?_⟩ <;> simp [HasRecord]
  · refine ⟨_, [], exec_bc3 s hrgb halpha, ?_, ?_, rfl, ?_⟩ <;> simp [HasRecord]

/-- With a record in `OUT` a `getout` line returns one word of it. -/
theorem getout_runs (j : Fin 4) : Runs HasRecord (AsmLine.getout j).expand 1 HasRecord := by
  refine Runs.one (fun _ _ h => h) fun s hs => ⟨s.give (s.readLE (0x40 + 4 * j.val) 4), [_], ?_, rfl, rfl, rfl, hs⟩
  fin_cases j <;> simp [perform, memRead, legalRead, aligned, Width.bytes, outBase] <;> exact hs

/-- The record reads return one word for every four bytes of the record. -/
theorem readRecord_runs (f : Format) : Runs HasRecord (assemble f.readRecord) (f.blockBytes / 4) HasRecord := by
  cases f
  · exact (getout_runs 0).append (getout_runs 1)
  · exact (getout_runs 0).append ((getout_runs 1).append ((getout_runs 2).append (getout_runs 3)))

end Sys2Proof.Machine
end

