-- ==== Sys2Proof/Laws/Pack.lean ====
section
/-! SUPPORT. Packed index fields: each index can be read back from its place, and a string of zeros is 0. -/

namespace Sys2Proof.Machine

/-- A packed string of `n` fields of `k` bits is below `2^(k·n)`. -/
theorem packIndices_lt (k : Nat) (xs : List Nat) (h : ∀ x ∈ xs, x < 2 ^ k) :
    packIndices k xs < 2 ^ (k * xs.length) := by
  induction xs with
  | nil => simp [packIndices]
  | cons x xs ih =>
    have hx := h x (by simp)
    have := ih fun y hy => h y (by simp [hy])
    rw [packIndices, List.length_cons, Nat.mul_succ, Nat.add_comm (k * xs.length), Nat.pow_add]
    calc x + 2 ^ k * packIndices k xs < 2 ^ k * 1 + 2 ^ k * packIndices k xs := by omega
      _ = 2 ^ k * (packIndices k xs + 1) := by ring
      _ ≤ 2 ^ k * 2 ^ (k * xs.length) := Nat.mul_le_mul_left _ this

/-- Field `i` of a packed string is the `i`-th index (R69, R72, R115, R136). -/
theorem packIndices_field (k : Nat) (xs : List Nat) (h : ∀ x ∈ xs, x < 2 ^ k) (i : Nat) (hi : i < xs.length) :
    packIndices k xs / 2 ^ (k * i) % 2 ^ k = xs[i] := by
  induction xs generalizing i with
  | nil => simp at hi
  | cons x xs ih =>
    have hx := h x (by simp)
    cases i with
    | zero => simp [packIndices, Nat.mod_eq_of_lt hx]
    | succ i =>
      have hdiv : packIndices k (x :: xs) / 2 ^ k = packIndices k xs := by
        rw [packIndices, Nat.add_mul_div_left _ _ (Nat.two_pow_pos k), Nat.div_eq_of_lt hx, Nat.zero_add]
      rw [Nat.mul_succ, Nat.add_comm (k * i), Nat.pow_add, ← Nat.div_div_eq_div_mul, hdiv]
      simpa using ih (fun y hy => h y (by simp [hy])) i (by simpa using hi)

/-- The zero string (R114, R135). -/
theorem packIndices_zero (k : Nat) (xs : List Nat) (h : ∀ x ∈ xs, x = 0) : packIndices k xs = 0 := by
  induction xs with
  | nil => rfl
  | cons x xs ih => simp [packIndices, h x (by simp), ih fun y hy => h y (by simp [hy])]

/-- An entry of a lookup table, or the default 0, is below any bound of the entries. -/
theorem getD_lt {l : List Nat} {b : Nat} (hb : 0 < b) (h : ∀ x ∈ l, x < b) (n : Nat) : l.getD n 0 < b := by
  rw [List.getD_eq_getElem?_getD]
  cases hn : l[n]? with
  | none => simpa using hb
  | some x => simpa using h x (List.mem_of_getElem? hn)

theorem colorIndex_lt (u0 u1 s : Rgb) : colorIndex u0 u1 s < 2 ^ 2 :=
  getD_lt (by decide) (by decide) _

theorem alphaIndex_lt (a0 a1 α : Nat) : alphaIndex a0 a1 α < 2 ^ 3 := by
  unfold alphaIndex
  split
  · decide
  · exact getD_lt (by decide) (by decide) _

/-- The 2-bit index of sample `i` is at bits 2i+1:2i of the index word (R69, R115). -/
theorem colorIndices_field (ss : List Rgb) (c0 c1 : Half) (i : Nat) (hi : i < ss.length) (h16 : ss.length ≤ 16) :
    ((colorIndices ss c0 c1).extractLsb' (2 * i) 2).toNat =
      colorIndex (unpack565 c0) (unpack565 c1) ss[i] := by
  have hlt : ∀ x ∈ ss.map (colorIndex (unpack565 c0) (unpack565 c1)), x < 2 ^ 2 := by
    intro x hx
    obtain ⟨y, -, rfl⟩ := List.mem_map.1 hx
    exact colorIndex_lt _ _ _
  have hb := packIndices_lt 2 _ hlt
  have hf := packIndices_field 2 _ hlt i (by simpa using hi)
  have h32 : packIndices 2 (ss.map (colorIndex (unpack565 c0) (unpack565 c1))) < 2 ^ 32 :=
    lt_of_lt_of_le hb (Nat.pow_le_pow_right (by omega) (by simp; omega))
  rw [colorIndices, BitVec.extractLsb'_toNat, BitVec.toNat_ofNat, Nat.mod_eq_of_lt h32, Nat.shiftRight_eq_div_pow, hf]
  simp

/-- The 3-bit index of sample `i` is at bits 3i+2:3i of the index string (R72, R136). -/
theorem alphaString_field (as : List Byte) (i : Nat) (hi : i < as.length) (h16 : as.length ≤ 16) :
    ((alphaString as).extractLsb' (3 * i) 3).toNat = alphaIndex (alphaMax as) (alphaMin as) as[i].toNat := by
  have hlt : ∀ x ∈ as.map (fun α => alphaIndex (alphaMax as) (alphaMin as) α.toNat), x < 2 ^ 3 := by
    intro x hx
    obtain ⟨y, -, rfl⟩ := List.mem_map.1 hx
    exact alphaIndex_lt _ _ _
  have hb := packIndices_lt 3 _ hlt
  have hf := packIndices_field 3 _ hlt i (by simpa using hi)
  have h48 : packIndices 3 (as.map (fun α => alphaIndex (alphaMax as) (alphaMin as) α.toNat)) < 2 ^ 48 :=
    lt_of_lt_of_le hb (Nat.pow_le_pow_right (by omega) (by simp; omega))
  rw [alphaString, BitVec.extractLsb'_toNat, BitVec.toNat_ofNat, Nat.mod_eq_of_lt h48, Nat.shiftRight_eq_div_pow, hf]
  simp

/-- The fitter's pair is ordered (R98). -/
theorem packOrdered_le (E0 E1 : Rgb) : (packOrdered E0 E1).2 ≤ (packOrdered E0 E1).1 := by
  unfold packOrdered
  dsimp only
  split
  · rename_i h; exact BitVec.le_of_lt h
  · rename_i h; exact BitVec.not_lt.1 h

theorem fitLine_le (ss : List Rgb) : (fitLine ss).2 ≤ (fitLine ss).1 := packOrdered_le _ _

/-- Equal endpoints give the zero index word (R114). -/
theorem colorIndices_self (ss : List Rgb) (c : Half) : colorIndices ss c c = 0 := by
  unfold colorIndices
  rw [packIndices_zero]
  · rfl
  · intro x hx
    obtain ⟨y, -, rfl⟩ := List.mem_map.1 hx
    simp [colorIndex, Vec3.sub, Vec3.dot, linePosition, Config.colorRemap]

/-- The largest alpha sample fits its byte (R132). -/
theorem alphaMax_lt (as : List Byte) : alphaMax as < 256 := by
  unfold alphaMax
  cases h : (as.map (·.toNat)).max? with
  | none => simp
  | some x =>
    obtain ⟨y, -, rfl⟩ := List.mem_map.1 (List.max?_mem h)
    simpa using y.isLt

/-- `a1 ≤ a0` (R132). -/
theorem alphaMin_le_alphaMax (as : List Byte) : alphaMin as ≤ alphaMax as := by
  unfold alphaMin alphaMax
  cases as with
  | nil => simp
  | cons a as =>
    simp only [List.map_cons, List.max?_cons, List.min?_cons, Option.getD_some]
    cases hM : (List.map (·.toNat) as).max? <;> cases hm : (List.map (·.toNat) as).min? <;> simp [Option.elim]

/-- Flat alpha gives the zero index string (R135). -/
theorem alphaString_flat (as : List Byte) (h : alphaMax as = alphaMin as) : alphaString as = 0 := by
  unfold alphaString
  rw [packIndices_zero]
  · rfl
  · intro x hx
    obtain ⟨y, -, rfl⟩ := List.mem_map.1 hx
    simp [alphaIndex, h]

end Sys2Proof.Machine
end

