-- ==== Sys2Proof/Laws/PerInstr.lean ====
section
/-! SUPPORT. The per-instruction family `EncodeLayout` of LAWS.json: what the encoder puts into the two fields of
CMD32 (R60), one lemma per constructor. -/

namespace Sys2Proof.Laws.EncodeLayout

/-- The word of an instruction has `RSV` = 0 and `OP` = its opcode (R60, R61). -/
def Statement (i : Instr) : Prop := rsvField (encode i) = 0 ∧ opField (encode i) = i.opcode

theorem nop : Statement .nop := by unfold Statement; decide
theorem pack : Statement .pack := by unfold Statement; decide
theorem unpack : Statement .unpack := by unfold Statement; decide
theorem fit : Statement .fit := by unfold Statement; decide
theorem cindex : Statement .cindex := by unfold Statement; decide
theorem alpha : Statement .alpha := by unfold Statement; decide
theorem bc1 : Statement .bc1 := by unfold Statement; decide
theorem bc3 : Statement .bc3 := by unfold Statement; decide

theorem reserved (op : BitVec 4) : Statement (.reserved op) := by
  unfold Statement
  revert op
  decide

end Sys2Proof.Laws.EncodeLayout
end

