-- ==== Sys2Proof/Tests/Slice0.lean ====
section
/-! SUPPORT. Tests on single steps, each expected value from 95_test_vectors.md or the encoding table (R61), and a
witness for the hypotheses of every statement. -/

namespace Sys2Proof.Tests

open Sys2Proof Sys2Proof.Machine

/-! ### Helpers -/

/-- A field of the next state; none at a stop. -/
def onNext {α : Type} (o : Host.Outcome State Fault Refusal) (f : State → α) : Option α :=
  match o with
  | .next t => some (f t)
  | .fault _ => none
  | .refused _ => none

/-- The reason of a stop with a fault. -/
def faultOf (o : Host.Outcome State Fault Refusal) : Option Fault :=
  match o with
  | .next _ => none
  | .fault r => some r
  | .refused _ => none

/-- Reset, then `WIN` written with the texels `t 0` to `t 15`, each (r, g, b, a). -/
def window (t : Nat → List Nat) : State :=
  { State.reset with
    mem := Memory.storeAll [] 0 (((List.range 16).flatMap t).map (BitVec.ofNat 8)) }

/-- The 16 bytes of `OUT`. -/
def outBytes (s : State) : List Nat := (List.range 16).map fun j => (s.out j).toNat

/-- The random block R of 95_test_vectors.md §2.2. -/
def blockR : State := window fun i =>
  [[165, 77, 202, 24], [37, 48, 187, 29], [109, 19, 44, 222], [214, 35, 123, 46],
   [217, 30, 63, 114], [31, 203, 25, 113], [23, 68, 148, 214], [73, 60, 157, 92]].getD i
  ([[52, 96, 190, 49], [32, 30, 105, 254], [218, 160, 238, 232], [185, 153, 127, 92],
   [124, 41, 153, 253], [175, 229, 147, 37], [60, 214, 84, 175], [77, 250, 215, 20]].getD (i - 8) [])

/-- Every texel (255, 0, 0, 255), vector SRC-1. -/
def solidRed : State := window fun _ => [255, 0, 0, 255]

/-! ### WellFormed: an ill-formed term for its one check -/

theorem test_wellFormed_refuses_a_command_opcode : (Instr.reserved 0x7).wellFormed = false := by decide
theorem test_wellFormed_accepts_the_reserved_range : (Instr.reserved 0x8).wellFormed = true := by decide

/-! ### Decode: words written out from R60 and R61 -/

theorem test_decode_nop : decode 0b00000000000000000000000000000000#32 = .ok .nop := by decide
theorem test_decode_pack : decode 0b00000000000000000000000000000001#32 = .ok .pack := by decide
theorem test_decode_unpack : decode 0b00000000000000000000000000000010#32 = .ok .unpack := by decide
theorem test_decode_fit : decode 0b00000000000000000000000000000011#32 = .ok .fit := by decide
theorem test_decode_cindex : decode 0b00000000000000000000000000000100#32 = .ok .cindex := by decide
theorem test_decode_alpha : decode 0b00000000000000000000000000000101#32 = .ok .alpha := by decide
theorem test_decode_bc1 : decode 0b00000000000000000000000000000110#32 = .ok .bc1 := by decide
theorem test_decode_bc3 : decode 0b00000000000000000000000000000111#32 = .ok .bc3 := by decide
theorem test_decode_reserved : decode 0b00000000000000000000000000001101#32 = .ok (.reserved 0xD) := by decide
theorem test_decode_reserved_bits : decode 0b00000000000000000000000000010110#32 = .error .reservedBits := by decide
theorem test_decode_bytes : decodeBytes [0x07, 0x00, 0x00, 0x00] = .ok .bc3 := by decide
theorem test_decode_short : decodeBytes [0x07, 0x00] = .error .notOneWord := by decide
theorem test_decodeTableWord : decodeTableWord 32 0x4 = some .cindex ∧ decodeTableWord 32 0x14 = none := by decide

/-! ### Commands: one step on a small state (95_test_vectors.md §2) -/

/-- Vector NOP-1, through the fetch. -/
theorem test_nop : onNext (step (blockR.withFetchWord 32 0x0)) (decide <| · = blockR) = some true := by decide +kernel

/-- Vector CODEC-6: (10, 20, 30), ARG[31:24] ignored. -/
theorem test_pack : onNext (exec .pack { State.reset with arg := 0xAB1E140A }) (·.res) = some 0x000008A3 := by decide

/-- Vector CODEC-8: the smallest non-zero value of each field. -/
theorem test_pack_smallest : onNext (exec .pack { State.reset with arg := 0x00080408 }) (·.res) = some 0x00000821 := by
  decide

/-- Vector CODEC-15: fields (3, 3, 3), where exact rounding would give 25. -/
theorem test_unpack : onNext (exec .unpack { State.reset with arg := 0x00001863 }) (·.res) = some 0x00180C18 := by
  decide

/-- Vector CODEC-18: fields (15, 31, 15). -/
theorem test_unpack_mixed : onNext (exec .unpack { State.reset with arg := 0x00007BEF }) (·.res) = some 0x007B7E7B := by
  decide

/-- Vector FIT-10, the random block. -/
theorem test_fit : onNext (exec .fit blockR) (·.res) = some 0x500B9798 := by decide +kernel

/-- Vector FIT-6, the clamp is active. -/
theorem test_fit_clamped :
    onNext (exec .fit (window fun i => if i < 8 then [255, 255, 0, 0] else if i < 12 then [0, 0, 0, 0] else
      [255, 0, 0, 0])) (·.res) = some 0x3800FF60 := by decide +kernel

/-- Vector CI-8, the random block against its own endpoints. -/
theorem test_cindex : onNext (exec .cindex { blockR with arg := 0x500B9798 }) (·.res) = some 0x2387FBDF := by
  decide +kernel

/-- Vector CI-5: swapped endpoints, ties at samples 2, 6 and 10. -/
theorem test_cindex_ties :
    onNext (exec .cindex { window (fun i => [2 * i, 0, 0, 0]) with arg := 0x00001800 }) (·.res) =
      some 0x002ABFD5 := by decide +kernel

/-- Vector AL-5: 7.9999 is below 8. -/
theorem test_alpha : onNext (exec .alpha (window fun i => [0, 0, 0, min i 8])) outBytes =
    some [0x08, 0x00, 0xC9, 0x5D, 0x4E, 0, 0, 0, 0, 0, 0, 0, 0, 0, 0, 0] := by decide +kernel

/-- Vector AL-7: sample 5 straddles two bytes. -/
theorem test_alpha_straddle :
    onNext (exec .alpha (window fun i => [0, 0, 0, if i = 5 then 255 else 0])) outBytes =
      some [0xFF, 0x00, 0x49, 0x12, 0x24, 0x49, 0x92, 0x24, 0, 0, 0, 0, 0, 0, 0, 0] := by decide +kernel

/-- Vector BC1-8, the diagonal gradient, with OLEN = 8. -/
theorem test_bc1 :
    onNext (exec .bc1 (window fun i => [16 * (i % 4), 16 * (i / 4), 0, 0])) (fun t => (outBytes t, t.status)) =
      some ([0xA0, 0x21, 0x00, 0x08, 0xF5, 0xBF, 0xAB, 0x0A, 0, 0, 0, 0, 0, 0, 0, 0], 0x00000800) := by
  decide +kernel

/-- Vector BC3-4, the random block, with OLEN = 16. -/
theorem test_bc3 : onNext (exec .bc3 blockR) (fun t => (outBytes t, t.status)) =
    some ([0xFE, 0x14, 0x89, 0xD2, 0xCA, 0x01, 0x8C, 0x2C, 0x98, 0x97, 0x0B, 0x50, 0xDF, 0xFB, 0x87, 0x23],
      0x00001000) := by decide +kernel

/-- Vector SRC-1, GMRT's own scenario. -/
theorem test_bc3_solid_red : onNext (exec .bc3 solidRed) outBytes =
    some [0xFF, 0xFF, 0, 0, 0, 0, 0, 0, 0x00, 0xF8, 0x00, 0xF8, 0, 0, 0, 0] := by decide +kernel

/-- Vector ERR-1. -/
theorem test_reserved : onNext (step (State.reset.withFetchWord 32 0x8)) (·.status) = some 0x00000003 := by decide

/-- Vector ERR-3: RSVD_BITS, not ILLEGAL_OP. -/
theorem test_reserved_bits_first : onNext (step (State.reset.withFetchWord 32 0x1F)) (·.status) = some 0x00000005 := by
  decide

/-! ### The port (95_test_vectors.md §2.6) -/

/-- Vector ERR-5: a 2-byte write to `CMD` runs no command. -/
theorem test_narrow_command : onNext (perform (.st .half 0x50 0x0006) solidRed) (fun t => (t.status, t.mem == solidRed.mem)) =
    some (0x00000007, true) := by decide +kernel

/-- Vector ERR-9: a misaligned read returns 0. -/
theorem test_misaligned : onNext (perform (.ld .word 0x02) State.reset) (fun t => (t.status, t.returned)) =
    some (0x00000007, [0]) := by decide

/-- Vector ERR-12: `ERR` and `ECODE` clear, `OLEN` stays. -/
theorem test_clear_error :
    onNext (perform (.st .word 0x5C 0x00000001) { State.reset with status := 0x00000803 }) (·.status) =
      some 0x00000800 := by decide

/-- Vector ERR-16: the last byte of `WIN`. -/
theorem test_last_window_byte : onNext (perform (.st .byte 0x3F 0x7F) State.reset) (fun t => (t.status, t.mem)) =
    some (0, [(63, 0x7F)]) := by decide

/-- R46: a 2-byte read is little-endian. -/
theorem test_little_endian : onNext (perform (.ld .half 0x02) { State.reset with mem := [(2, 0x34), (3, 0x12)] }) (·.returned) =
    some [0x1234] := by decide

/-- R37: the first command after reset that reads a sample stops. -/
theorem test_unwritten_stops : faultOf (step (State.reset.withFetchWord 32 0x3)) = some .unwrittenSample := by decide

/-- R38: `OUT` before the first record. -/
theorem test_out_before_record : faultOf (perform (.ld .byte 0x4F) State.reset) = some .outUnspecified := by decide

/-- U8: a reserved `ECODE`. -/
theorem test_reserved_ecode :
    faultOf (perform (.ld .word 0x5C) { State.reset with status := 0x00000009 }) = some .reservedEcode := by decide

/-- R190: reset makes `WIN` unwritten again. -/
theorem test_reset_op : onNext (perform .reset blockR) (fun t => (t.mem, t.resets)) = some ([], 1) := by decide

/-! ### The assembler and the host's loop -/

/-- P2, line 17 and R77. -/
theorem test_expand : (AsmLine.command .bc3).expand = [.st .word 0x50 0x00000007] ∧
    (AsmLine.texel 15 255 0 0 255).expand = [.st .word 0x3C 0xFF0000FF] ∧
    (AsmLine.cindexOf 0x0000 0xFFFF).expand = [.st .word 0x54 0xFFFF0000, .st .word 0x50 0x00000004] ∧
    (AsmLine.getout 3).expand = [.ld .word 0x4C] := by decide

/-- SRC-3: a 5 × 5 image as BC1 is 32 bytes, a 13 × 7 image 64. -/
theorem test_stream_length : (Image.mk 5 5 3 []).streamLength .bc1 = 32 ∧ (Image.mk 13 7 3 []).streamLength .bc1 = 64 := by
  decide

/-- SRC-6: tile (4, 4) of a 5 × 5 image holds the last pixel everywhere (one channel, pixel = 10y + x). -/
theorem test_edge_replication :
    (Image.mk 5 5 1 ((List.range 25).map fun k => BitVec.ofNat 8 (10 * (k / 5) + k % 5))).tilePixel 4 4 3 2 =
      (44, 44, 44, 255) := by decide

/-! ### Witnesses: the hypotheses of each statement are met -/

/-- A legal state with a record: the random block after `bc3`. -/
def afterBc3 : State := blockR.putRecord (alphaBlock blockR.alphaSamples ++ colorBlock blockR.rgbSamples) 16

/-- The same with one command to run. -/
def afterBc3Then (i : Instr) : State := { afterBc3 with pending := [commandOp i] }

theorem witness_written : blockR.rgbWritten = true ∧ blockR.alphaWritten = true := by decide +kernel

theorem witness_reads_written (i : Instr) : ∀ a, readsWin i a = true → blockR.written a = true := by
  have h : ∀ a < 64, blockR.written a = true := by decide +kernel
  intro a ha
  apply h
  cases i <;> simp [readsWin] at ha <;> omega

/-- R37: both sides of the stop have a state. -/
theorem witness_unwritten : readsWin .fit 0 = true ∧ State.reset.mem.byte? 0 = none ∧ readsWin .alpha 63 = true ∧
    readsWin .bc1 62 = true ∧ readsWin .bc1 63 = false := by decide

theorem witness_reset_op : ({ blockR with pending := [.reset] } : State).pending = .reset :: [] := rfl

theorem witness_idle : blockR.pending = [] := rfl

theorem witness_command_fetch : (State.reset.withFetchWord 32 0x6).pending = .st .word 0x50 0x00000006#32 :: [] ∧
    decode 0x00000006#32 = .ok .bc1 ∧ decodeBytes (wordBytes 0x00000006#32) = .ok .bc1 := by decide

theorem witness_misaligned : (0x3F#8).toNat % Width.half.bytes ≠ 0 ∧ (0x4E#8).toNat % Width.word.bytes ≠ 0 := by decide

/-- A boundary address of each clause of `RejectedAddressesRecordBadAccess`. -/
theorem witness_rejected : (0x50 ≤ (0x50#8).toNat ∧ (0x50#8).toNat ≤ 0x5F ∧ Width.half ≠ .word) ∧
    (0x50 ≤ (0x5F#8).toNat ∧ (0x5F#8).toNat ≤ 0x5F ∧ Width.byte ≠ .word) ∧ 0x60 ≤ (0x60#8).toNat ∧
    0x60 ≤ (0xFF#8).toNat ∧ (0x40 ≤ (0x4F#8).toNat ∧ (0x4F#8).toNat ≤ 0x4F) := by decide

theorem witness_window_address : (0x3E#8).toNat % Width.half.bytes = 0 ∧ (0x3E#8).toNat + Width.half.bytes ≤ 0x40 ∧
    (0x3C#8).toNat + Width.word.bytes ≤ 0x40 ∧ (0x3C#8).toNat = 4 * 15 := by decide

theorem witness_repeatable_read : legalRead 0x3C .word = true ∧
    onNext (perform (.ld .word 0x3C) blockR) (·.returned) = some [0x14D7FA4D] := by decide +kernel

theorem witness_out_address : (0x4E#8).toNat % Width.half.bytes = 0 ∧ 0x40 ≤ (0x4E#8).toNat ∧ (0x4E#8).toNat ≤ 0x4F ∧
    Status.olen State.reset.status = 0 ∧ Status.olen afterBc3.status ≠ 0 := by decide

theorem witness_ecode_legal : (Status.ecode State.reset.status).toNat ≤ 3 := by decide

/-- A state with a recorded error, and one without. -/
theorem witness_err : Status.err (State.reset.raise .badAccess).status = true ∧
    Status.err State.reset.status = false := by decide

theorem witness_erroneous : (PortOp.ld .word 0x60).erroneous = true ∧ (PortOp.st .half 0x50 6).erroneous = true ∧
    (PortOp.st .word 0x50 0x8).error? = some .illegalOp ∧ (PortOp.st .word 0x50 0xF).error? = some .illegalOp ∧
    (PortOp.st .word 0x50 0x10).error? = some .rsvdBits ∧ (PortOp.st .word 0x50 0x7).erroneous = false := by decide

theorem witness_priority : legalRead 0x02 .word = false ∧ legalWrite 0x58 .word = false ∧ 16 ≤ (0x1F#32).toNat ∧
    8 ≤ (0xF#32).toNat ∧ (0xF#32).toNat < 16 := by decide

/-- A step that sets `ERR`, one that clears it, one that keeps it. -/
theorem witness_err_steps :
    onNext (step (State.reset.withFetchWord 32 0x8)) (fun t => Status.err t.status) = some true ∧
    onNext (step { State.reset with status := 0x3, pending := [.st .word 0x5C 0x1] }) (fun t => Status.err t.status) =
      some false ∧
    onNext (step { State.reset with status := 0x3, pending := [.st .word 0x50 0x1F] })
      (fun t => Status.ecode t.status) = some 1 := by decide

theorem witness_safe_step : SafeStep (State.reset.withFetchWord 32 0x1) := ⟨_, rfl⟩

/-- `OLEN` and frame statements: each kind of command answers a next state. -/
theorem witness_commands_complete :
    (onNext (exec .alpha blockR) fun t => Status.olen t.status) = some 8 ∧
    (onNext (exec .bc1 blockR) fun t => Status.olen t.status) = some 8 ∧
    (onNext (exec .bc3 blockR) fun t => Status.olen t.status) = some 16 ∧
    (onNext (exec .fit blockR) fun t => Status.olen t.status) = some 0 ∧
    (onNext (execute 0x8 blockR) fun t => Status.olen t.status) = some 0 := by decide +kernel

theorem witness_decode_encode : (Instr.reserved 0xF).wellFormed = true ∧ decode 0xF#32 = .ok (.reserved 0xF) ∧
    decodeBytes [0x0F, 0, 0, 0] = .ok (.reserved 0xF) := by decide

/-- A value at the boundary of each clause of `EveryCommandWordIsAccountedFor`. -/
theorem witness_words : (0x10#32).toNat / 16 ≠ 0 ∧ ((0x8#32).toNat / 16 = 0 ∧ 8 ≤ (0x8#32).toNat % 16) ∧
    ((0x7#32).toNat / 16 = 0 ∧ (0x7#32).toNat % 16 < 8) := by decide

theorem witness_nop_with_reserved_bits : (0x10#32).toNat % 16 = 0 ∧ (0x10#32) ≠ 0 := by decide

theorem witness_legal_command : ∀ op, Instr.bc3 ≠ .reserved op := by decide

/-- Two states that agree on what `bc1` reads and on nothing else that could matter. -/
theorem witness_same_reads :
    (∀ a < 64, readsWin .bc1 a = true → solidRed.mem.byte? a =
      ({ window (fun i => [255, 0, 0, i]) with arg := 7, res := 9, status := 3 } : State).mem.byte? a) ∧
    onNext (exec .bc1 solidRed) outBytes =
      onNext (exec .bc1 { window (fun i => [255, 0, 0, i]) with arg := 7, res := 9, status := 3 }) outBytes := by
  decide +kernel

theorem witness_solid : ∀ i < 16, solidRed.rgb i = ⟨255, 0, 0⟩ := by decide +kernel

theorem witness_not_solid : blockR.rgb 0 ≠ blockR.rgb 15 := by decide +kernel

theorem witness_scale : (0 : ℚ) < 1 / 3 := by norm_num

theorem witness_perm : [(⟨1, 2, 3⟩ : Rgb), ⟨4, 5, 6⟩].Perm [⟨4, 5, 6⟩, ⟨1, 2, 3⟩] := List.Perm.swap _ _ _

theorem witness_sixteen : (blockR.rgbSamples.map Vec3.toRat).length = 16 := by decide +kernel

theorem witness_endpoints_differ : (0x500B9798#32).extractLsb' 0 16 ≠ (0x500B9798#32).extractLsb' 16 16 ∧
    (0x12341234#32).extractLsb' 0 16 = (0x12341234#32).extractLsb' 16 16 := by decide

/-- Line and sample of CI-1's neighbour: red endpoints 0 and 24 and the sample 12, half way. -/
theorem witness_line_parameter : ((576 : Int) : ℚ) = (⟨24, 0, 0⟩ : Vec3 ℚ).dot ⟨24, 0, 0⟩ ∧
    ((288 : Int) : ℚ) = (⟨24, 0, 0⟩ : Vec3 ℚ).dot ⟨12, 0, 0⟩ := by constructor <;> norm_num [Vec3.dot]

/-- Non-flat and flat alpha after `alpha`. -/
theorem witness_alpha_endpoints :
    (onNext (exec .alpha blockR) fun t => decide (t.out 1 ≠ t.out 0)) = some true ∧
    (onNext (exec .alpha solidRed) fun t => decide (t.out 0 = t.out 1)) = some true := by decide +kernel

/-- A tie at k = 0 and one at k = 2 on the line from red 0 to red 24: 3t is 1/2 at red 4 and 5/2 at red 20. -/
theorem witness_tie_samples :
    (576 : Int) = ((⟨24, 0, 0⟩ : Rgb).toInt.sub (⟨0, 0, 0⟩ : Rgb).toInt).dot
      ((⟨24, 0, 0⟩ : Rgb).toInt.sub (⟨0, 0, 0⟩ : Rgb).toInt) ∧
    (96 : Int) = ((⟨24, 0, 0⟩ : Rgb).toInt.sub (⟨0, 0, 0⟩ : Rgb).toInt).dot
      ((⟨4, 0, 0⟩ : Rgb).toInt.sub (⟨0, 0, 0⟩ : Rgb).toInt) ∧
    (480 : Int) = ((⟨24, 0, 0⟩ : Rgb).toInt.sub (⟨0, 0, 0⟩ : Rgb).toInt).dot
      ((⟨20, 0, 0⟩ : Rgb).toInt.sub (⟨0, 0, 0⟩ : Rgb).toInt) ∧
    6 * (96 : Int) = (2 * (0 : Nat) + 1) * 576 ∧ 6 * (480 : Int) = (2 * (2 : Nat) + 1) * 576 := by decide

theorem witness_line : (0 : Int) < 576 ∧ (-1 : Int) ≤ 0 ∧ (576 : Int) ≤ 576 ∧ (0 : Int) ≤ 2 ∧ (2 : Int) ≤ 2 ∧
    6 * (480 : Int) = (2 * 2 + 1) * 576 := by decide

theorem witness_alpha_range : 0 < 255 ∧ 255 ≤ 255 ∧ 0 ≤ 1 ∧ 1 ≤ 255 := by decide

theorem witness_channel_order : (3 : Byte) ≤ 200 ∧ (5 : BitVec 5) < 6 ∧ (62 : BitVec 6) < 63 := by decide

/-- A window that meets every hypothesis of `FitComputesTheSpecFormula`: solid red, whose covariance is zero. -/
theorem witness_fit_formula :
    ∃ (x : Fin 16 → Channel → ℚ) (m : Channel → ℚ) (C : Channel → Channel → ℚ) (d : Nat → Channel → ℚ)
      (L mc dotMax dotMin scale : ℚ) (E0 E1 : Channel → Nat),
      solidRed.rgbWritten = true ∧
      (∀ i c, x i c = (((solidRed.rgb i).get c).toNat : ℚ)) ∧
      (∀ c, m c = (∑ i, x i c) / 16) ∧
      (∀ c k, C c k = ∑ i, (x i c - m c) * (x i k - m k)) ∧
      (d 0 .r = 1 ∧ d 0 .g = 2850325 / 1048576 ∧ d 0 .b = 13176795 / 4194304) ∧
      (∀ n j, d (n + 1) j = d n .r * C .r j + d n .g * C .g j + d n .b * C .b j) ∧
      L = d 3 .r * d 3 .r + d 3 .g * d 3 .g + d 3 .b * d 3 .b ∧
      mc = m .r * d 3 .r + m .g * d 3 .g + m .b * d 3 .b ∧
      (∀ i, x i .r * d 3 .r + x i .g * d 3 .g + x i .b * d 3 .b ≤ dotMax) ∧
      (∃ i, x i .r * d 3 .r + x i .g * d 3 .g + x i .b * d 3 .b = dotMax) ∧
      (∀ i, dotMin ≤ x i .r * d 3 .r + x i .g * d 3 .g + x i .b * d 3 .b) ∧
      (∃ i, x i .r * d 3 .r + x i .g * d 3 .g + x i .b * d 3 .b = dotMin) ∧
      scale = (if L = 0 then 0 else 1 / L) ∧
      (∀ c, (E0 c : Int) = ⌊min (max (m c + (dotMax - mc) * scale * d 3 c) 0) 255 + 1 / 2⌋) ∧
      (∀ c, (E1 c : Int) = ⌊min (max (m c + (dotMin - mc) * scale * d 3 c) 0) 255 + 1 / 2⌋) := by
  have hrgb : ∀ i : Fin 16, solidRed.rgb i = ⟨255, 0, 0⟩ := fun i => witness_solid i i.isLt
  refine ⟨fun _ c => if c = .r then 255 else 0, fun c => if c = .r then 255 else 0, fun _ _ => 0,
    fun n c => if n = 0 then (match c with | .r => 1 | .g => 2850325 / 1048576 | .b => 13176795 / 4194304) else 0,
    0, 0, 0, 0, 0, fun c => if c = .r then 255 else 0, fun c => if c = .r then 255 else 0,
    by decide +kernel, ?_, ?_, ?_, ⟨rfl, rfl, rfl⟩, ?_, ?_, ?_, ?_, ⟨0, ?_⟩, ?_, ⟨0, ?_⟩, ?_, ?_, ?_⟩
  · intro i c
    rw [hrgb i]
    cases c <;> simp [Vec3.get]
  · intro c; cases c <;> simp
  · intro c k; cases c <;> cases k <;> simp
  · intro n j; simp
  all_goals first
    | (intro c; cases c <;> simp <;> norm_num)
    | simp

/-- A legal state that holds a BC3 record, with a command to run. -/
theorem witness_legal : Legal (afterBc3Then .bc1) where
  memory := by decide +kernel
  status := by unfold StatusLegal; decide +kernel
  out := by unfold OutMatchesOlen; decide +kernel

theorem witness_record_legal : RecordLegal (afterBc3Then .alpha) := by
  refine ⟨fun h => absurd h (by decide), fun _ => ⟨⟨?_, ?_⟩, ?_, ?_⟩⟩ <;> decide +kernel

theorem witness_legal_step :
    (onNext (step (afterBc3Then .bc1)) fun t => Status.olen t.status) = some 8 := by
  decide +kernel

/-- The three outcomes of a legal step are all met. -/
theorem witness_legal_stops : faultOf (step (State.reset.withFetchWord 32 0x7)) = some .unwrittenSample ∧
    faultOf (step { State.reset with pending := [.ld .word 0x40] }) = some .outUnspecified := by decide

theorem witness_platform : State.reset.written 0x4F = false ∧ ∃ q, (Platform.reset 2).stepAt 1 = some q :=
  ⟨rfl, _, rfl⟩

theorem witness_image : ∃ ls, (Image.mk 5 4 3 (List.replicate 60 0)).lines .bc1 = some ls ∧
    (State.reset.load ls).pending = assemble ls ∧
    16 = ((5 + 3) / 4) * ((4 + 3) / 4) * (if Format.bc1 = .bc1 then 8 else 16) := ⟨_, rfl, rfl, rfl⟩

end Sys2Proof.Tests
end

namespace Sys2Proof.Machine

/-! ### Unwritten bytes: what a command reads, and when it stops (R23, R37) -/

theorem written_eq_false_iff (s : State) (a : Nat) : s.written a = false ↔ s.mem.byte? a = none := by
  simp [State.written]

/-- The RGB bytes of `WIN` are those whose address is not 3 modulo 4 (R21). -/
theorem rgbWritten_iff (s : State) : s.rgbWritten = true ↔ ∀ a < 64, a % 4 ≠ 3 → s.written a = true := by
  simp only [State.rgbWritten, Config.sampleCount, List.all_eq_true, List.mem_range, Bool.and_eq_true]
  constructor
  · intro h a ha h3
    obtain ⟨⟨hr, hg⟩, hb⟩ := h (a / 4) (by omega)
    have hc : a = 4 * (a / 4) ∨ a = 4 * (a / 4) + 1 ∨ a = 4 * (a / 4) + 2 := by omega
    rcases hc with hc | hc | hc <;> rw [hc] <;> assumption
  · intro h i hi
    exact ⟨⟨h _ (by omega) (by omega), h _ (by omega) (by omega)⟩, h _ (by omega) (by omega)⟩

/-- The alpha bytes of `WIN` are those whose address is 3 modulo 4 (R21). -/
theorem alphaWritten_iff (s : State) : s.alphaWritten = true ↔ ∀ a < 64, a % 4 = 3 → s.written a = true := by
  simp only [State.alphaWritten, Config.sampleCount, List.all_eq_true, List.mem_range]
  constructor
  · intro h a ha h3
    have hc : a = 4 * (a / 4) + 3 := by omega
    rw [hc]
    exact h (a / 4) (by omega)
  · intro h i hi
    exact h _ (by omega) (by omega)

/-- A command is ready exactly when every `WIN` byte it reads has been written (R23, R37). -/
theorem ready_iff (i : Instr) (s : State) : ready i s = true ↔ ∀ a, readsWin i a = true → s.written a = true := by
  cases i with
  | nop | pack | unpack | reserved op => simp [ready, readsWin]
  | fit | cindex | bc1 => simp [ready, readsWin, rgbWritten_iff]
  | alpha => simp [ready, readsWin, alphaWritten_iff]
  | bc3 =>
    simp only [ready, readsWin, Bool.and_eq_true, rgbWritten_iff, alphaWritten_iff, decide_eq_true_eq]
    constructor
    · rintro ⟨hrgb, halpha⟩ a ha
      by_cases h3 : a % 4 = 3
      · exact halpha a ha h3
      · exact hrgb a ha h3
    · exact fun h => ⟨fun a ha _ => h a ha, fun a ha _ => h a ha⟩

theorem exec_eq_next_iff_ready (i : Instr) (s : State) : (∃ t, exec i s = .next t) ↔ ready i s = true := by
  refine ⟨fun ⟨t, ht⟩ => ?_, exec_completes i s⟩
  by_contra hr
  simp [exec_faults i s (by simpa using hr)] at ht

theorem exec_eq_unwrittenSample_iff (i : Instr) (s : State) :
    exec i s = .fault .unwrittenSample ↔ ready i s = false := by
  refine ⟨fun h => ?_, exec_faults i s⟩
  by_contra hr
  obtain ⟨t, ht⟩ := exec_completes i s (by simpa using hr)
  simp [ht] at h

theorem ready_congr {s t : State} (h : s.mem = t.mem) (i : Instr) : ready i s = ready i t := by
  rw [Bool.eq_iff_iff, ready_iff, ready_iff]
  simp only [written_congr h]

/-! ### The fields of `STATUS` after an error is recorded or reset is applied -/

theorem status_raise_of_err {st : Word} (h : Status.err st = true) (e : ErrorCode) : Status.raise st e = st := by
  simp [Status.raise, h]

theorem ecode_raise_of_no_err {st : Word} (h : Status.err st = false) (e : ErrorCode) :
    Status.ecode (Status.raise st e) = e.code := by
  simp [Status.raise, h]

@[simp] theorem err_zero : Status.err 0#32 = false := rfl

@[simp] theorem ecode_zero : Status.ecode 0#32 = 0 := rfl

@[simp] theorem olen_zero : Status.olen 0#32 = 0 := rfl

/-- "4 to 7 are never produced" (R171). -/
theorem code_toNat_le_three (e : ErrorCode) : e.code.toNat ≤ 3 := by
  cases e <;> decide

theorem ecode_raise_le_three {st : Word} (h : (Status.ecode st).toNat ≤ 3) (e : ErrorCode) :
    (Status.ecode (Status.raise st e)).toNat ≤ 3 := by
  rcases status_raise_cases st e with ⟨-, hr⟩ | ⟨-, -, hr, -⟩
  · rwa [hr]
  · rw [hr]
    exact code_toNat_le_three e

/-- The reserved bits of `STATUS` read as 0 (R31). -/
theorem readValue_reservedBits (st : Word) : Status.readValue st &&& 0xFFFFE0F0 = 0 := by
  have hmask : Status.definedBits &&& 0xFFFFE0F0 = 0 := by decide
  rw [Status.readValue, BitVec.and_assoc, hmask]
  exact BitVec.and_zero

/-! ### Single accesses to `OUT` and to `STATUS` -/

/-- An aligned read that starts in `WIN` or `OUT` is legal (R44, R45). -/
theorem legalRead_memory {a : BitVec 8} {w : Width} (hal : a.toNat % w.bytes = 0) (ha : a.toNat ≤ 0x4F) :
    legalRead a w = true := by
  have hend : a.toNat + w.bytes - 1 ≤ 0x4F := by
    cases w <;> simp only [Width.bytes] at hal ⊢ <;> omega
  simp [legalRead, aligned, hal, hend]

/-- A legal read of `OUT` stops while `OLEN` = 0, and returns the addressed bytes otherwise (R38). -/
theorem memRead_out {a : BitVec 8} {w : Width} (s : State) (hl : legalRead a w = true) (hlo : 0x40 ≤ a.toNat)
    (hhi : a.toNat ≤ 0x4F) :
    memRead a w s = if Status.olen s.status = 0 then .fault .outUnspecified
      else .next (s.give (s.readLE a.toNat w.bytes)) := by
  simp [memRead, hl, show ¬ a.toNat ≤ 0x3F by omega, hhi]

theorem memRead_cmd (s : State) : memRead cmdAddr .word s = .next (s.give 0) := by
  rw [memRead, if_neg (by decide), if_neg (by decide), if_neg (by decide), if_pos rfl]

theorem memRead_arg (s : State) : memRead argAddr .word s = .next (s.give s.arg) := by
  rw [memRead, if_neg (by decide), if_neg (by decide), if_neg (by decide), if_neg (by decide), if_pos rfl]

theorem memRead_res (s : State) : memRead resAddr .word s = .next (s.give s.res) := by
  rw [memRead, if_neg (by decide), if_neg (by decide), if_neg (by decide), if_neg (by decide), if_neg (by decide),
    if_pos rfl]

/-- A 4-byte read of `STATUS` stops at a reserved `ECODE` (U8), and returns the defined bits otherwise (R31). -/
theorem memRead_status (s : State) :
    memRead statusAddr .word s = if 4 ≤ (Status.ecode s.status).toNat then .fault .reservedEcode
      else .next (s.give (Status.readValue s.status)) := by
  rw [memRead, if_neg (by decide), if_neg (by decide), if_neg (by decide), if_neg (by decide), if_neg (by decide),
    if_neg (by decide)]

/-- A write to `CMD` runs the word (R32, R66). -/
theorem memWrite_cmd (s : State) (v : Word) : memWrite cmdAddr .word v s = execute v s := by
  rw [memWrite, if_neg (by decide), if_neg (by decide), if_pos rfl]

theorem memWrite_arg (s : State) (v : Word) : memWrite argAddr .word v s = .next (s.putArg v) := by
  rw [memWrite, if_neg (by decide), if_neg (by decide), if_neg (by decide), if_pos rfl]

/-- A 4-byte write to `STATUS` clears the error when bit 0 is 1, and does nothing when it is 0 (R28). -/
theorem memWrite_status (s : State) (v : Word) :
    memWrite statusAddr .word v s = if v.getLsbD 0 then .next s.clearError else .next s := by
  rw [memWrite, if_neg (by decide), if_neg (by decide), if_neg (by decide), if_neg (by decide)]

/-- A legal read past `OUT` is a 4-byte read of one of the four registers (R45). -/
theorem legalRead_register {a : BitVec 8} {w : Width} (hl : legalRead a w = true) (ha : 0x4F < a.toNat) :
    w = .word ∧ (a = cmdAddr ∨ a = argAddr ∨ a = resAddr ∨ a = statusAddr) := by
  simp only [legalRead, Bool.and_eq_true, Bool.or_eq_true, decide_eq_true_eq, List.mem_cons, List.not_mem_nil,
    or_false] at hl
  obtain ⟨-, hmem | ⟨hreg, hw⟩⟩ := hl
  · cases w <;> simp only [Width.bytes] at hmem <;> omega
  · exact ⟨hw, hreg⟩

/-- A legal write past `WIN` is a 4-byte write to `CMD`, `ARG` or `STATUS` (R45). -/
theorem legalWrite_register {a : BitVec 8} {w : Width} (hl : legalWrite a w = true) (ha : 0x3F < a.toNat) :
    w = .word ∧ (a = cmdAddr ∨ a = argAddr ∨ a = statusAddr) := by
  simp only [legalWrite, Bool.and_eq_true, Bool.or_eq_true, decide_eq_true_eq, List.mem_cons, List.not_mem_nil,
    or_false] at hl
  obtain ⟨-, hwin | ⟨hreg, hw⟩⟩ := hl
  · cases w <;> simp only [Width.bytes] at hwin <;> omega
  · exact ⟨hw, hreg⟩

/-! ### Which accesses complete -/

/-- A read completes unless it is a legal read of `OUT` before the first record or of a reserved `ECODE` (R38, U8). -/
theorem memRead_completes_iff (a : BitVec 8) (w : Width) (s : State) :
    (∃ t, memRead a w s = .next t) ↔ (legalRead a w = true →
      (0x40 ≤ a.toNat → a.toNat ≤ 0x4F → Status.olen s.status ≠ 0) ∧
      (a = statusAddr → (Status.ecode s.status).toNat ≤ 3)) := by
  cases hl : legalRead a w with
  | false => simp [memRead, hl]
  | true =>
    by_cases hwin : a.toNat ≤ 0x3F
    · have hne : a ≠ statusAddr := by rintro rfl; simp [statusAddr] at hwin
      simp [memRead, hl, hwin, hne, show ¬ 0x40 ≤ a.toNat by omega]
    · by_cases hout : a.toNat ≤ 0x4F
      · have hne : a ≠ statusAddr := by rintro rfl; simp [statusAddr] at hout
        rw [memRead_out s hl (by omega) hout]
        by_cases ho : Status.olen s.status = 0#5 <;> simp [ho, hne, hout, show 0x40 ≤ a.toNat by omega]
      · obtain ⟨rfl, rfl | rfl | rfl | rfl⟩ := legalRead_register hl (by omega)
        · simp [memRead_cmd, hout, show cmdAddr ≠ statusAddr by decide]
        · simp [memRead_arg, hout, show argAddr ≠ statusAddr by decide]
        · simp [memRead_res, hout, show resAddr ≠ statusAddr by decide]
        · rw [memRead_status]
          by_cases he : (Status.ecode s.status).toNat ≤ 3
          · rw [if_neg (by omega)]
            simp [he, statusAddr]
          · rw [if_pos (by omega)]
            simp [he, statusAddr]

/-- A command word completes unless it is a command that is not ready (R66). -/
theorem execute_completes_iff (v : Word) (s : State) :
    (∃ t, execute v s = .next t) ↔ ∀ i, decode v = .ok i → ready i s = true := by
  unfold execute
  cases hd : decode v with
  | error e => simp
  | ok i => simp [exec_eq_next_iff_ready]

/-- A write completes unless it is a legal write to `CMD` whose word does not complete. -/
theorem memWrite_completes_iff (a : BitVec 8) (w : Width) (v : Word) (s : State) :
    (∃ t, memWrite a w v s = .next t) ↔
      (legalWrite a w = true → a = cmdAddr → ∃ t, execute v s = .next t) := by
  cases hl : legalWrite a w with
  | false => simp [memWrite, hl]
  | true =>
    by_cases hc : a = cmdAddr
    · subst hc
      obtain ⟨rfl, -⟩ := legalWrite_register hl (by decide)
      simp [memWrite_cmd]
    · simp only [memWrite, hl, hc]
      split_ifs <;> simp

/-- Whether an access completes depends on memory, on `OLEN`, and on `ECODE` not being a reserved value, alone. -/
theorem perform_completes_of_agree {s u : State} (hm : s.mem = u.mem)
    (ho : Status.olen s.status = Status.olen u.status)
    (he : (Status.ecode s.status).toNat ≤ 3 → (Status.ecode u.status).toNat ≤ 3) (op : PortOp)
    (h : ∃ t, perform op s = .next t) : ∃ t, perform op u = .next t := by
  cases op with
  | ld w a =>
    refine (memRead_completes_iff a w u).2 fun hl => ?_
    obtain ⟨hout, hst⟩ := (memRead_completes_iff a w s).1 h hl
    exact ⟨ho ▸ hout, fun ha => he (hst ha)⟩
  | st w a v =>
    refine (memWrite_completes_iff a w v u).2 fun hl hc => ?_
    have hs := (execute_completes_iff v s).1 ((memWrite_completes_iff a w v s).1 h hl hc)
    exact (execute_completes_iff v u).2 fun i hi => ready_congr hm i ▸ hs i hi
  | reset => exact ⟨_, rfl⟩

/-- A recorded error stops nothing (R28). -/
theorem safeStep_raise {s : State} (h : SafeStep s) (e : ErrorCode) : SafeStep (s.raise e) := by
  unfold SafeStep at h ⊢
  cases hp : s.pending with
  | nil => exact ⟨_, step_idle (by simpa using hp)⟩
  | cons op rest =>
    rw [step_pending hp] at h
    rw [step_pending (s := s.raise e) (by simpa using hp)]
    exact perform_completes_of_agree (s := { s with pending := rest })
      (u := State.raise { s with pending := rest } e) rfl (by simp)
      (fun he => ecode_raise_le_three he e) op h

/-! ### Everything an access can do to `STATUS`, said once -/

/-- The ways an access `op` can take `STATUS` from `st` to another value. -/
inductive StatusChange (op : PortOp) (st : Word) : Word → Prop where
  /-- It leaves `STATUS` as it is. -/
  | kept : StatusChange op st st
  /-- It records its error (R173). -/
  | raised (e : ErrorCode) (h : op.error? = some e) : StatusChange op st (Status.raise st e)
  /-- It is the write that clears the error (R28, R29). -/
  | cleared (v : Word) (hop : op = .st .word statusAddr v) (hv : v.getLsbD 0 = true) :
    StatusChange op st (Status.clear st)
  /-- It is reset (R36, R190). -/
  | reset (hop : op = .reset) : StatusChange op st 0
  /-- It is a command that stores a record of 8 or 16 bytes (R30). -/
  | recorded (n : BitVec 5) (hn : n = 8 ∨ n = 16) : StatusChange op st (Status.setOlen st n)

theorem decodeOp_ne_reserved : ∀ o op : BitVec 4, o.toNat < 8 → decodeOp o ≠ .reserved op := by decide

/-- A word below 8 is one of the eight commands (R61). -/
theorem decode_ne_reserved {v : Word} (h : v.toNat < 8) (op : BitVec 4) : decode v ≠ .ok (.reserved op) := by
  intro hd
  exact decodeOp_ne_reserved _ op (by rw [opField_toNat]; omega) (decode_eq_ok_iff.1 hd).2

/-- The error of a 4-byte write to `CMD` of a word that is no command (R62, R63). -/
theorem error?_illegal_word {v : Word} (h : 8 ≤ v.toNat) :
    (PortOp.st .word cmdAddr v).error? = some (if v.toNat < 16 then .illegalOp else .rsvdBits) := by
  have hl : legalWrite cmdAddr .word = true := by decide
  by_cases h16 : v.toNat < 16
  · simp [PortOp.error?, hl, h, h16, show ¬ 16 ≤ v.toNat by omega]
  · simp [PortOp.error?, hl, h16, show 16 ≤ v.toNat by omega]

/-- What a command word does to `STATUS`, by the error of the write that carries it. -/
theorem execute_statusChange {v : Word} {s t : State} (h : execute v s = .next t) :
    StatusChange (.st .word cmdAddr v) s.status t.status := by
  by_cases h8 : 8 ≤ v.toNat
  · rw [execute_illegal s h8] at h
    cases h
    exact .raised _ (error?_illegal_word h8)
  · rcases execute_cases h with ⟨hr, -⟩ | ⟨i, hd, hx⟩
    · exact absurd ((rsvField_eq_zero_iff v).2 (by omega)) hr
    · rcases exec_cases hx with
        ⟨-, rfl⟩ | ⟨r, -, rfl⟩ | ⟨-, rfl⟩ | ⟨-, rfl⟩ | ⟨-, rfl⟩ | ⟨op, rfl, -⟩
      · exact .kept
      · exact .kept
      · exact .recorded 8 (.inl rfl)
      · exact .recorded 8 (.inl rfl)
      · exact .recorded 16 (.inr rfl)
      · exact absurd hd (decode_ne_reserved (by omega) op)

theorem memWrite_statusChange {a : BitVec 8} {w : Width} {v : Word} {s t : State} (h : memWrite a w v s = .next t) :
    StatusChange (.st w a v) s.status t.status := by
  cases hl : legalWrite a w with
  | false =>
    have ht : t = s.raise .badAccess := by simpa [memWrite, hl, eq_comm] using h
    exact ht ▸ .raised .badAccess (by simp [PortOp.error?, hl])
  | true =>
    by_cases hwin : a.toNat ≤ 0x3F
    · have ht : t = s.writeLE a.toNat w.bytes v := by simpa [memWrite, hl, hwin, eq_comm] using h
      exact ht ▸ .kept
    · obtain ⟨rfl, rfl | rfl | rfl⟩ := legalWrite_register hl (by omega)
      · exact execute_statusChange (memWrite_cmd s v ▸ h)
      · cases memWrite_arg s v ▸ h
        exact .kept
      · rw [memWrite_status] at h
        split at h
        · cases h
          exact .cleared v rfl ‹_›
        · cases h
          exact .kept

theorem memRead_statusChange {a : BitVec 8} {w : Width} {s t : State} (h : memRead a w s = .next t) :
    StatusChange (.ld w a) s.status t.status := by
  rcases memRead_cases h with ⟨hl, rfl⟩ | ⟨-, v, rfl⟩
  · exact .raised .badAccess (by simp [PortOp.error?, hl])
  · exact .kept

/-- A step leaves `STATUS` as it is, or changes it as its access does. -/
theorem step_statusChange {s t : State} (h : step s = .next t) :
    t.status = s.status ∨ ∃ op rest, s.pending = op :: rest ∧ StatusChange op s.status t.status := by
  rcases step_cases h with ⟨-, rfl⟩ | ⟨op, rest, hp, ⟨w, a, rfl, h⟩ | ⟨w, a, v, rfl, h⟩ | ⟨rfl, rfl⟩⟩
  · exact .inl rfl
  · have hc := memRead_statusChange h
    exact .inr ⟨_, rest, hp, hc⟩
  · have hc := memWrite_statusChange h
    exact .inr ⟨_, rest, hp, hc⟩
  · exact .inr ⟨_, rest, hp, .reset rfl⟩

namespace StatusChange

variable {op : PortOp} {st st' : Word}

/-- Only reset and the clearing write take `ERR` from 1 to 0 (R28). -/
theorem of_err_falls (h : StatusChange op st st') (he : Status.err st = true) (he' : Status.err st' = false) :
    op = .reset ∨ ∃ v, v.getLsbD 0 = true ∧ op = .st .word statusAddr v := by
  cases h with
  | kept => simp [he] at he'
  | raised e _ => simp at he'
  | cleared v hop hv => exact .inr ⟨v, hv, hop⟩
  | reset hop => exact .inl hop
  | recorded n _ => simp [he] at he'

/-- Where `ERR` goes from 0 to 1, `ECODE` takes the code of the access's error (R29). -/
theorem ecode_of_err_rises (h : StatusChange op st st') (he : Status.err st = false) (he' : Status.err st' = true) :
    ∃ e, op.error? = some e ∧ Status.ecode st' = e.code := by
  cases h with
  | kept => simp [he] at he'
  | raised e hop => exact ⟨e, hop, ecode_raise_of_no_err he e⟩
  | cleared v _ _ => simp at he'
  | reset _ => simp at he'
  | recorded n _ => simp [he] at he'

/-- While `ERR` stays 1, `ECODE` does not change (R29). -/
theorem ecode_of_err_stays (h : StatusChange op st st') (he : Status.err st = true) (he' : Status.err st' = true) :
    Status.ecode st' = Status.ecode st := by
  cases h with
  | kept => rfl
  | raised e _ => rw [status_raise_of_err he]
  | cleared v _ _ => simp at he'
  | reset _ => simp at he'
  | recorded n _ => simp

/-- Where `ERR` is cleared, so is `ECODE` (R29). -/
theorem ecode_of_err_falls (h : StatusChange op st st') (he : Status.err st = true) (he' : Status.err st' = false) :
    Status.ecode st' = 0 := by
  cases h with
  | kept => simp [he] at he'
  | raised e _ => simp at he'
  | cleared v _ _ => simp
  | reset _ => simp
  | recorded n _ => simp [he] at he'

/-- No access produces an `ECODE` of 4 to 7 (R171). -/
theorem ecode_le_three (h : StatusChange op st st') (hc : (Status.ecode st).toNat ≤ 3) :
    (Status.ecode st').toNat ≤ 3 := by
  cases h with
  | kept => exact hc
  | raised e _ => exact ecode_raise_le_three hc e
  | cleared v _ _ => simp
  | reset _ => simp
  | recorded n _ => simpa using hc

/-- An access keeps `OLEN` or leaves it at one of its three values (R30). -/
theorem olen_cases (h : StatusChange op st st') :
    Status.olen st' = Status.olen st ∨ Status.olen st' = 0 ∨ Status.olen st' = 8 ∨ Status.olen st' = 16 := by
  cases h with
  | kept | raised e _ | cleared v _ _ => simp
  | reset _ => simp
  | recorded n hn => rcases hn with rfl | rfl <;> simp

end StatusChange

/-! ### The obligations -/

/-- Settles O11: the read is legal, so `memRead_out` decides it by `OLEN`. -/
theorem outReadsNeedARecord : Obligations.OutReadsNeedARecord := by
  intro s a w hal hlo hhi
  have hread := memRead_out s (legalRead_memory hal hhi) hlo hhi
  refine ⟨fun ho => hread.trans (if_pos ho), fun ho => ⟨s.readLE a.toNat w.bytes, hread.trans (if_neg ho), ?_⟩⟩
  intro k hk
  exact extract_readLE s a.toNat w.bytes k hk (by cases w <;> simp [Width.bytes])

/-- Settles O16: of the ways `STATUS` changes only reset and the clearing write lower `ERR`, and no stop depends on
`ERR`. -/
theorem errIsSticky : Obligations.ErrIsSticky := by
  refine ⟨fun s e => by simp, fun s t h he he' => ?_, fun s v hv => ?_, fun s e h => safeStep_raise h e⟩
  · rcases step_statusChange h with hk | ⟨op, rest, hp, hc⟩
    · simp [hk, he] at he'
    · rcases hc.of_err_falls he he' with rfl | ⟨v, hv, rfl⟩
      · exact ⟨rest, .inl hp⟩
      · exact ⟨rest, .inr ⟨v, hv, hp⟩⟩
  · exact ⟨s.clearError, (memWrite_status s v).trans (if_pos hv), by simp⟩

/-- Settles O17, by the ways a step can change `STATUS`. -/
theorem ecodeHoldsTheFirstError : Obligations.EcodeHoldsTheFirstError := by
  intro s t h
  rcases step_statusChange h with hk | ⟨op, rest, hp, hc⟩
  · rw [hk]
    refine ⟨fun _ _ => rfl, fun he he' => ?_, fun he he' => ?_, id⟩ <;> simp [he] at he'
  · refine ⟨hc.ecode_of_err_stays, hc.ecode_of_err_falls, fun he he' => ?_, hc.ecode_le_three⟩
    obtain ⟨e, hop, hcode⟩ := hc.ecode_of_err_rises he he'
    exact ⟨op, rest, e, hp, hop, hcode⟩

/-- Settles O18: the write is `clearError` or nothing, by bit 0, and the read masks the reserved bits. -/
theorem statusWritesChangeOnlyTheError : Obligations.StatusWritesChangeOnlyTheError := by
  refine fun s v => ⟨?_, fun he => ⟨_, (memRead_status s).trans (if_neg (by omega)), readValue_reservedBits s.status⟩⟩
  cases hv : v.getLsbD 0 with
  | true =>
    exact ⟨s.clearError, (memWrite_status s v).trans (if_pos hv), highBits_clear s.status, by simp, by simp, rfl⟩
  | false => exact ⟨s, (memWrite_status s v).trans (if_neg (ne_true_of_eq_false hv)), rfl, by simp, by simp, rfl⟩

/-- Settles O19: by what each command, each erroneous word and each step does to `STATUS`. -/
theorem olenIsWrittenByBlockCommands : Obligations.OlenIsWrittenByBlockCommands := by
  refine ⟨fun i s t h => ?_, fun s t v hv h => ?_, fun s t h hs => ?_⟩
  · rcases exec_cases h with
      ⟨rfl, rfl⟩ | ⟨v, rfl | rfl | rfl | rfl, rfl⟩ | ⟨rfl, rfl⟩ | ⟨rfl, rfl⟩ | ⟨rfl, rfl⟩ | ⟨op, rfl, rfl⟩ <;> simp
  · rw [execute_illegal s hv] at h
    cases h
    simp
  · rcases step_statusChange h with hk | ⟨op, rest, -, hc⟩
    · rwa [hk]
    · rcases hc.olen_cases with ho | ho
      · rwa [ho]
      · exact ho

/-- Settles O25: a command stops exactly when it is not ready, and it is ready exactly when all it reads is written. -/
theorem unwrittenSamplesStop : Obligations.UnwrittenSamplesStop := by
  intro i s
  rw [exec_eq_unwrittenSample_iff, ← Bool.not_eq_true, ready_iff]
  simp only [not_forall, exists_prop, Bool.not_eq_true, written_eq_false_iff]

/-- Settles O1, from the definition of `State.reset`. -/
theorem resetValues : Obligations.ResetValues :=
  ⟨rfl, rfl, rfl, err_zero, ecode_zero, olen_zero, fun a => (written_eq_false_iff _ a).2 (byte?_nil a)⟩

end Sys2Proof.Machine

namespace Sys2Proof.Machine

/-! ### Accesses the port rejects (R44, R48 to R50) -/

/-- A read the port rejects records BAD_ACCESS and returns 0. -/
theorem perform_ld_rejected {a : BitVec 8} {w : Width} (s : State) (h : legalRead a w = false) :
    perform (.ld w a) s = .next ((s.raise .badAccess).give 0) :=
  if_pos h

/-- A write the port rejects records BAD_ACCESS and stores nothing. -/
theorem perform_st_rejected {a : BitVec 8} {w : Width} (s : State) (v : Word) (h : legalWrite a w = false) :
    perform (.st w a v) s = .next (s.raise .badAccess) :=
  if_pos h

theorem aligned_of_legalRead {a : BitVec 8} {w : Width} (hl : legalRead a w = true) : a.toNat % w.bytes = 0 := by
  simp only [legalRead, Bool.and_eq_true] at hl
  exact of_decide_eq_true hl.1

theorem aligned_of_legalWrite {a : BitVec 8} {w : Width} (hl : legalWrite a w = true) : a.toNat % w.bytes = 0 := by
  simp only [legalWrite, Bool.and_eq_true] at hl
  exact of_decide_eq_true hl.1

/-- What may be written may be read: the legal writes are the legal reads without `OUT` and `RES` (R45). -/
theorem legalRead_of_legalWrite {a : BitVec 8} {w : Width} (hl : legalWrite a w = true) : legalRead a w = true := by
  by_cases hwin : a.toNat ≤ 0x3F
  · exact legalRead_memory (aligned_of_legalWrite hl) (by omega)
  · obtain ⟨rfl, rfl | rfl | rfl⟩ := legalWrite_register hl (by omega) <;> decide

/-- Where the port rejects a read, it rejects the write of the same address and width. -/
theorem legalWrite_eq_false_of_legalRead {a : BitVec 8} {w : Width} (h : legalRead a w = false) :
    legalWrite a w = false :=
  Bool.eq_false_of_not_eq_true fun hl => ne_true_of_eq_false h (legalRead_of_legalWrite hl)

/-- A misaligned read is rejected (R44). -/
theorem legalRead_misaligned {a : BitVec 8} {w : Width} (h : a.toNat % w.bytes ≠ 0) : legalRead a w = false :=
  Bool.eq_false_of_not_eq_true fun hl => h (aligned_of_legalRead hl)

/-- A narrow access to a register and any access past the registers are rejected (R49, R50). -/
theorem legalRead_narrow_or_unmapped {a : BitVec 8} {w : Width}
    (h : 0x50 ≤ a.toNat ∧ a.toNat ≤ 0x5F ∧ w ≠ .word ∨ 0x60 ≤ a.toNat) : legalRead a w = false := by
  refine Bool.eq_false_of_not_eq_true fun hl => ?_
  obtain ⟨hw, hreg⟩ := legalRead_register hl (by omega)
  rcases h with ⟨-, -, hnarrow⟩ | hpast
  · exact hnarrow hw
  · rcases hreg with rfl | rfl | rfl | rfl <;> exact absurd hpast (by decide)

/-- Neither `OUT` nor `RES` is one of the writable registers (R48). -/
theorem legalWrite_out_or_res {a : BitVec 8} {w : Width}
    (h : 0x40 ≤ a.toNat ∧ a.toNat ≤ 0x4F ∨ a = resAddr) : legalWrite a w = false := by
  refine Bool.eq_false_of_not_eq_true fun hl => ?_
  have hpast : 0x3F < a.toNat := by
    rcases h with ⟨hlo, -⟩ | rfl
    · exact hlo
    · decide
  obtain ⟨-, rfl | rfl | rfl⟩ := legalWrite_register hl hpast <;> exact absurd h (by decide)

/-- Settles O6: both kinds of address fail the port's legality test, and a write is rejected wherever a read is. -/
theorem rejectedAddressesRecordBadAccess : Obligations.RejectedAddressesRecordBadAccess := by
  refine fun s a w v => ⟨fun h => ?_, fun h => perform_st_rejected s v (legalWrite_out_or_res h)⟩
  have hread := legalRead_narrow_or_unmapped h
  exact ⟨perform_ld_rejected s hread, perform_st_rejected s v (legalWrite_eq_false_of_legalRead hread)⟩

/-- Settles O5: a misaligned access is rejected, so only `STATUS` and the values returned can change. -/
theorem misalignedAccessRecordsBadAccess : Obligations.MisalignedAccessRecordsBadAccess := by
  intro s a w v h
  have hread := legalRead_misaligned h
  have hwrite := legalWrite_eq_false_of_legalRead hread
  exact ⟨⟨_, perform_ld_rejected s hread, rfl, rfl, rfl, rfl, rfl⟩,
    ⟨_, perform_st_rejected s v hwrite, rfl, rfl, rfl, rfl, rfl⟩⟩

end Sys2Proof.Machine

namespace Sys2Proof.Machine

/-! ### Every command word (R61 to R63, R66) -/

/-- A word that decodes runs its command (R66). -/
theorem execute_of_decode {v : Word} {i : Instr} (s : State) (h : decode v = .ok i) : execute v s = exec i s := by
  simp only [execute, h]

/-- The opcode map of R61 as a table: entry `op` is the command of opcode `op`. -/
theorem getElem?_commands_eq_decodeOp : ∀ op : BitVec 4, op.toNat < 8 →
    [Instr.nop, .pack, .unpack, .fit, .cindex, .alpha, .bc1, .bc3][op.toNat]? = some (decodeOp op) := by decide

/-- Settles O22: 16 and above, 8 to 15, and below 8 are the three ranges of the decoder. -/
theorem everyCommandWordIsAccountedFor : Obligations.EveryCommandWordIsAccountedFor := by
  refine fun v s => ⟨fun hrsv => ?_, fun hrsv hop => ?_, fun hrsv hop => ?_⟩
  · have h16 : ¬ v.toNat < 16 := by omega
    rw [execute_illegal s (by omega), if_neg h16, State.raise]
  · have h16 : v.toNat < 16 := by omega
    rw [execute_illegal s (by omega), if_pos h16, State.raise]
  · have hdecode : decode v = .ok (decodeOp (opField v)) := decode_eq_ok_iff.2 ⟨by omega, rfl⟩
    rw [← opField_toNat] at hop ⊢
    exact ⟨_, getElem?_commands_eq_decodeOp _ hop, execute_of_decode s hdecode⟩

end Sys2Proof.Machine

namespace Sys2Proof.Machine

/-! ### The three fields of a packed color (R67, R80) -/

theorem half_toNat_fields (v : Half) :
    v.toNat = 2048 * (v.extractLsb' 11 5).toNat + 32 * (v.extractLsb' 5 6).toNat + (v.extractLsb' 0 5).toNat := by
  simp only [BitVec.extractLsb'_toNat, Nat.shiftRight_eq_div_pow]
  omega

/-- A packed color is its three fields (R67). -/
theorem half_eq_iff_fields (v w : Half) :
    v = w ↔ v.extractLsb' 11 5 = w.extractLsb' 11 5 ∧ v.extractLsb' 5 6 = w.extractLsb' 5 6 ∧
      v.extractLsb' 0 5 = w.extractLsb' 0 5 := by
  refine ⟨by rintro rfl; simp, fun ⟨hr, hg, hb⟩ => BitVec.eq_of_toNat_eq ?_⟩
  rw [half_toNat_fields v, half_toNat_fields w, hr, hg, hb]

/-- The masks and shifts of R80 put the top 5, 6 and 5 bits of the channels side by side. -/
theorem pack565_eq_append (r g b : Byte) :
    pack565 r g b = r.extractLsb' 3 5 ++ g.extractLsb' 2 6 ++ b.extractLsb' 3 5 := by
  apply BitVec.eq_of_getLsbD_eq
  intro i hi
  simp only [BitVec.getLsbD_append, BitVec.getLsbD_extractLsb', pack565]
  interval_cases i <;> simp

@[simp] theorem extractRed_pack565 (r g b : Byte) : (pack565 r g b).extractLsb' 11 5 = r.extractLsb' 3 5 := by
  rw [pack565_eq_append, BitVec.extractLsb'_append_eq_of_le (by decide), BitVec.extractLsb'_append_eq_left]

@[simp] theorem extractGreen_pack565 (r g b : Byte) : (pack565 r g b).extractLsb' 5 6 = g.extractLsb' 2 6 := by
  rw [pack565_eq_append, BitVec.extractLsb'_append_eq_of_le (by decide), BitVec.extractLsb'_append_eq_right]

@[simp] theorem extractBlue_pack565 (r g b : Byte) : (pack565 r g b).extractLsb' 0 5 = b.extractLsb' 3 5 := by
  rw [pack565_eq_append, BitVec.extractLsb'_append_eq_right]

theorem top5_toNat (x : Byte) : (x.extractLsb' 3 5).toNat = x.toNat / 8 := by
  simp only [BitVec.extractLsb'_toNat, Nat.shiftRight_eq_div_pow]
  omega

theorem top6_toNat (x : Byte) : (x.extractLsb' 2 6).toNat = x.toNat / 4 := by
  simp only [BitVec.extractLsb'_toNat, Nat.shiftRight_eq_div_pow]
  omega

theorem top5_eq_iff (x : Byte) (f : BitVec 5) :
    x.extractLsb' 3 5 = f ↔ 8 * f.toNat ≤ x.toNat ∧ x.toNat ≤ 8 * f.toNat + 7 := by
  rw [← BitVec.toNat_inj, top5_toNat]
  omega

theorem top6_eq_iff (x : Byte) (f : BitVec 6) :
    x.extractLsb' 2 6 = f ↔ 4 * f.toNat ≤ x.toNat ∧ x.toNat ≤ 4 * f.toNat + 3 := by
  rw [← BitVec.toNat_inj, top6_toNat]
  omega

/-- The preimages of a packed color: eight, four and eight channel values (R81). -/
theorem pack565_eq_iff (r g b : Byte) (v : Half) : pack565 r g b = v ↔
    (8 * (v.extractLsb' 11 5).toNat ≤ r.toNat ∧ r.toNat ≤ 8 * (v.extractLsb' 11 5).toNat + 7) ∧
    (4 * (v.extractLsb' 5 6).toNat ≤ g.toNat ∧ g.toNat ≤ 4 * (v.extractLsb' 5 6).toNat + 3) ∧
    (8 * (v.extractLsb' 0 5).toNat ≤ b.toNat ∧ b.toNat ≤ 8 * (v.extractLsb' 0 5).toNat + 7) := by
  rw [half_eq_iff_fields, extractRed_pack565, extractGreen_pack565, extractBlue_pack565, top5_eq_iff, top6_eq_iff,
    top5_eq_iff]

theorem pack565_toNat (r g b : Byte) :
    (pack565 r g b).toNat = 2048 * (r.toNat / 8) + 32 * (g.toNat / 4) + b.toNat / 8 := by
  rw [half_toNat_fields, extractRed_pack565, extractGreen_pack565, extractBlue_pack565, top5_toNat, top6_toNat,
    top5_toNat]

/-! ### The expansion of a field (R82) -/

theorem expand5_toNat (f : BitVec 5) : (expand5 f).toNat = (f.toNat * 527 + 15) / 64 := by
  rw [expand5, Config.unpackBias5, BitVec.toNat_ofNat, Nat.shiftRight_eq_div_pow]
  omega

theorem expand6_toNat (f : BitVec 6) : (expand6 f).toNat = (f.toNat * 259 + 35) / 64 := by
  rw [expand6, Config.unpackBias6, BitVec.toNat_ofNat, Nat.shiftRight_eq_div_pow]
  omega

theorem expand5_lt_expand5 {f f' : BitVec 5} (h : f < f') : expand5 f < expand5 f' := by
  rw [BitVec.lt_def] at h ⊢
  rw [expand5_toNat, expand5_toNat]
  omega

theorem expand6_lt_expand6 {f f' : BitVec 6} (h : f < f') : expand6 f < expand6 f' := by
  rw [BitVec.lt_def] at h ⊢
  rw [expand6_toNat, expand6_toNat]
  omega

/-- The top bits of an expanded field are the field: packing undoes expanding. -/
theorem top5_expand5 (f : BitVec 5) : (expand5 f).extractLsb' 3 5 = f := by
  rw [top5_eq_iff, expand5_toNat]
  omega

theorem top6_expand6 (f : BitVec 6) : (expand6 f).extractLsb' 2 6 = f := by
  rw [top6_eq_iff, expand6_toNat]
  omega

/-- Packing undoes unpacking, so `Pack565` is onto (R81) and `Unpack565` injective (R83). -/
theorem pack565_unpack565 (v : Half) : pack565 (unpack565 v).r (unpack565 v).g (unpack565 v).b = v := by
  rw [half_eq_iff_fields, extractRed_pack565, extractGreen_pack565, extractBlue_pack565]
  exact ⟨top5_expand5 _, top6_expand6 _, top5_expand5 _⟩

theorem unpack565_inj (v w : Half) : unpack565 v = unpack565 w ↔ v = w := by
  refine ⟨fun h => ?_, congrArg unpack565⟩
  rw [← pack565_unpack565 v, h, pack565_unpack565]

/-- Expanding the top 5 bits of a byte moves it by at most 7 (R86). -/
theorem expand5_top5_near (x : Byte) :
    -7 ≤ (x.toNat : Int) - (expand5 (x.extractLsb' 3 5)).toNat ∧
      (x.toNat : Int) - (expand5 (x.extractLsb' 3 5)).toNat ≤ 7 := by
  rw [expand5_toNat, top5_toNat]
  omega

/-- Expanding the top 6 bits of a byte moves it by at most 3 (R86). -/
theorem expand6_top6_near (x : Byte) :
    -3 ≤ (x.toNat : Int) - (expand6 (x.extractLsb' 2 6)).toNat ∧
      (x.toNat : Int) - (expand6 (x.extractLsb' 2 6)).toNat ≤ 3 := by
  rw [expand6_toNat, top6_toNat]
  omega

/-! ### What `pack` and `unpack` answer (R84, R85) -/

/-- A field of a field is a field of the whole. -/
theorem extract_extract {n : Nat} (x : BitVec n) (i j : Nat) {k m : Nat} (h : j + m ≤ k) :
    (x.extractLsb' i k).extractLsb' j m = x.extractLsb' (i + j) m := by
  apply BitVec.eq_of_getLsbD_eq
  intro l hl
  simp [hl, show j + l < k by omega, Nat.add_assoc]

section ByteFields
variable (w x y z : Byte)

theorem extract_append_byte0 : (w ++ x ++ y ++ z).extractLsb' 0 8 = z := BitVec.extractLsb'_append_eq_right

theorem extract_append_byte1 : (w ++ x ++ y ++ z).extractLsb' 8 8 = y := by
  rw [BitVec.extractLsb'_append_eq_of_le (by decide), BitVec.extractLsb'_append_eq_right]

theorem extract_append_byte2 : (w ++ x ++ y ++ z).extractLsb' 16 8 = x := by
  rw [BitVec.extractLsb'_append_eq_of_le (by decide), BitVec.extractLsb'_append_eq_of_le (by decide),
    BitVec.extractLsb'_append_eq_right]

theorem extract_append_byte3 : (w ++ x ++ y ++ z).extractLsb' 24 8 = w := by
  rw [BitVec.extractLsb'_append_eq_of_le (by decide), BitVec.extractLsb'_append_eq_of_le (by decide),
    BitVec.extractLsb'_append_eq_left]

end ByteFields

/-- `pack` changes `RES` alone, to the top bits of each operand (R84). -/
theorem exec_pack_fields (s : State) : ∃ t, exec .pack s = .next t ∧ t = { s with res := t.res } ∧
    t.res.extractLsb' 11 5 = (argRed s.arg).extractLsb' 3 5 ∧
    t.res.extractLsb' 5 6 = (argGreen s.arg).extractLsb' 2 6 ∧
    t.res.extractLsb' 0 5 = (argBlue s.arg).extractLsb' 3 5 ∧ t.res.extractLsb' 16 16 = 0 := by
  refine ⟨_, exec_pack s, rfl, ?_, ?_, ?_, ?_⟩
  · rw [putRes_res, BitVec.extractLsb'_setWidth_of_le (by decide), extractRed_pack565]
  · rw [putRes_res, BitVec.extractLsb'_setWidth_of_le (by decide), extractGreen_pack565]
  · rw [putRes_res, BitVec.extractLsb'_setWidth_of_le (by decide), extractBlue_pack565]
  · rw [putRes_res, BitVec.setWidth_eq_append_extractLsb' (v := 16) (w := 32)]
    exact BitVec.extractLsb'_append_eq_left

/-- `unpack` changes `RES` alone, to the expanded fields of ARG[15:0] (R85). -/
theorem exec_unpack_bytes (s : State) : ∃ t, exec .unpack s = .next t ∧ t = { s with res := t.res } ∧
    t.res.extractLsb' 0 8 = expand5 (s.arg.extractLsb' 11 5) ∧
    t.res.extractLsb' 8 8 = expand6 (s.arg.extractLsb' 5 6) ∧
    t.res.extractLsb' 16 8 = expand5 (s.arg.extractLsb' 0 5) ∧ t.res.extractLsb' 24 8 = 0 := by
  refine ⟨_, exec_unpack s, rfl, ?_, ?_, ?_, ?_⟩
  · exact (extract_append_byte0 ..).trans (congrArg expand5 (BitVec.extractLsb'_extractLsb'_of_le (by decide)))
  · exact (extract_append_byte1 ..).trans (congrArg expand6 (BitVec.extractLsb'_extractLsb'_of_le (by decide)))
  · exact (extract_append_byte2 ..).trans (congrArg expand5 (BitVec.extractLsb'_extractLsb'_of_le (by decide)))
  · exact extract_append_byte3 ..

/-! ### The obligations -/

/-- Settles O30: the fields of `pack` are the top bits of its operands, which are bytes of `ARG`. -/
theorem packWritesTheTopBits : Obligations.PackWritesTheTopBits := by
  intro s
  obtain ⟨t, ht, hframe, hred, hgreen, hblue, hhigh⟩ := exec_pack_fields s
  rw [argRed, extract_extract _ _ _ (by decide)] at hred
  rw [argGreen, extract_extract _ _ _ (by decide)] at hgreen
  rw [argBlue, extract_extract _ _ _ (by decide)] at hblue
  exact ⟨t, ht, hframe, hred, hgreen, hblue, hhigh⟩

/-- Settles O31: monotone by the value of the packed color, and onto because packing undoes unpacking. -/
theorem packPreimages : Obligations.PackPreimages := by
  refine ⟨pack565_eq_iff, fun r r' g g' b b' hr hg hb => ?_, fun r g b => ?_,
    fun v => ⟨_, _, _, pack565_unpack565 v⟩⟩
  · rw [BitVec.le_def] at hr hg hb ⊢
    rw [pack565_toNat, pack565_toNat]
    omega
  · simp only [BitVec.setWidth_ushiftRight_eq_extractLsb]
    exact ⟨extractRed_pack565 r g b, extractGreen_pack565 r g b, extractBlue_pack565 r g b⟩

/-- Settles O32: the bytes of `unpack` are the expanded fields, whose values are R82's formulas. -/
theorem unpackExpandsEachField : Obligations.UnpackExpandsEachField := by
  intro s
  obtain ⟨t, ht, hframe, hred, hgreen, hblue, hhigh⟩ := exec_unpack_bytes s
  refine ⟨t, ht, hframe, ?_, ?_, ?_, hhigh⟩
  · rw [hred, expand5_toNat]
  · rw [hgreen, expand6_toNat]
  · rw [hblue, expand5_toNat]

/-- Settles O33: the tables by evaluating the 32 and the 64 field values. -/
theorem unpackTables : Obligations.UnpackTables :=
  ⟨by decide, by decide, fun _ _ => expand5_lt_expand5, fun _ _ => expand6_lt_expand6, unpack565_inj⟩

/-- Settles O34: `unpack` expands the top bits that `pack` kept, and each expansion stays near its channel. -/
theorem packUnpackRoundTrip : Obligations.PackUnpackRoundTrip := by
  refine ⟨fun s => ?_, by decide, by decide⟩
  obtain ⟨t, ht, -, hred, hgreen, hblue, -⟩ := exec_pack_fields s
  obtain ⟨u, hu, -, hred', hgreen', hblue', -⟩ := exec_unpack_bytes { t with arg := t.res }
  dsimp only at hred' hgreen' hblue'
  rw [hred] at hred'
  rw [hgreen] at hgreen'
  rw [hblue] at hblue'
  refine ⟨t, u, ht, hu, fun k hk => ?_, ?_⟩
  · rcases hk with rfl | rfl
    · rw [hred']
      exact expand5_top5_near (argRed s.arg)
    · rw [hblue']
      exact expand5_top5_near (argBlue s.arg)
  · rw [hgreen']
    exact expand6_top6_near (argGreen s.arg)

end Sys2Proof.Machine

namespace Sys2Proof.Machine

/-! ### The fitted pair and `fit` (R97, R98, R100) -/

/-- The pair is the maximum and the minimum of the two packed endpoints (R98). -/
theorem packOrdered_toNat (E0 E1 : Rgb) :
    (packOrdered E0 E1).1.toNat = max (pack565 E0.r E0.g E0.b).toNat (pack565 E1.r E1.g E1.b).toNat ∧
      (packOrdered E0 E1).2.toNat = min (pack565 E0.r E0.g E0.b).toNat (pack565 E1.r E1.g E1.b).toNat := by
  simp only [packOrdered, BitVec.lt_def]
  split <;> constructor <;> dsimp only <;> omega

theorem packOrdered_self (E : Rgb) : packOrdered E E = (pack565 E.r E.g E.b, pack565 E.r E.g E.b) := by
  simp [packOrdered]

/-- `fit` changes `RES` alone, to the pair of packed endpoints in order (R100). -/
theorem exec_fit_fields {s : State} (h : s.rgbWritten = true) {E0 E1 : Rgb}
    (hE : lineEndpoints (s.rgbSamples.map Vec3.toRat) (direction (s.rgbSamples.map Vec3.toRat)) = (E0, E1)) :
    ∃ t, exec .fit s = .next t ∧ t = { s with res := t.res } ∧
      (t.res.extractLsb' 0 16).toNat = max (pack565 E0.r E0.g E0.b).toNat (pack565 E1.r E1.g E1.b).toNat ∧
      (t.res.extractLsb' 16 16).toNat = min (pack565 E0.r E0.g E0.b).toNat (pack565 E1.r E1.g E1.b).toNat := by
  have hfit : fitLine s.rgbSamples = packOrdered E0 E1 := by simp only [fitLine, hE]
  obtain ⟨hmax, hmin⟩ := packOrdered_toNat E0 E1
  refine ⟨_, exec_fit s h, rfl, ?_, ?_⟩
  · rw [putRes_res, BitVec.extractLsb'_append_eq_right, hfit, hmax]
  · rw [putRes_res, BitVec.extractLsb'_append_eq_left, hfit, hmin]

/-- Settles O36: `fit` packs the two line endpoints and orders the pair. -/
theorem fitOrdersItsEndpoints : Obligations.FitOrdersItsEndpoints := by
  intro s h
  obtain ⟨t, ht, -, hmax, hmin⟩ := exec_fit_fields h rfl
  exact ⟨t, _, _, ht, rfl, hmax, hmin⟩

/-! ### The extreme of a list of projections (R95) -/

theorem max?_getD_eq {l : List ℚ} {M : ℚ} (hmem : M ∈ l) (hle : ∀ x ∈ l, x ≤ M) : l.max?.getD 0 = M := by
  rw [List.max?_eq_some_iff.2 ⟨hmem, hle⟩, Option.getD_some]

theorem le_max?_getD {l : List ℚ} {x : ℚ} (h : x ∈ l) : x ≤ l.max?.getD 0 := by
  obtain ⟨M, hM⟩ := Option.isSome_iff_exists.1 (List.isSome_max?_of_mem h)
  rw [hM]
  exact (List.max?_eq_some_iff.1 hM).2 x h

theorem max?_perm {l l' : List ℚ} (h : l.Perm l') : l.max? = l'.max? :=
  Option.ext fun a => by simp only [List.max?_eq_some_iff, h.mem_iff]

/-- A positive factor moves through the maximum. -/
theorem max?_getD_map_mul {k : ℚ} (hk : 0 < k) (l : List ℚ) :
    (l.map (k * ·)).max?.getD 0 = k * l.max?.getD 0 := by
  cases hl : l.max? with
  | none => simp [List.max?_eq_none_iff.1 hl]
  | some M =>
    obtain ⟨hmem, hle⟩ := List.max?_eq_some_iff.1 hl
    refine max?_getD_eq (List.mem_map_of_mem hmem) ?_
    simpa [hk] using hle

/-- The minimum is the maximum of the negated list, negated. -/
theorem min?_getD_eq_neg (l : List ℚ) : l.min?.getD 0 = -(l.map (-1 * ·)).max?.getD 0 := by
  cases hl : l.min? with
  | none => simp [List.min?_eq_none_iff.1 hl]
  | some M =>
    obtain ⟨hmem, hle⟩ := List.min?_eq_some_iff.1 hl
    rw [max?_getD_eq (List.mem_map_of_mem hmem) (List.forall_mem_map.2 fun b hb => by simpa using hle b hb)]
    simp

/-! ### Vectors and their scalings -/

/-- `k·v`, channel by channel. -/
def scaleVec (k : ℚ) (v : Vec3 ℚ) : Vec3 ℚ := ⟨k * v.r, k * v.g, k * v.b⟩

/-- Every covariance term multiplied by `k` (R102). -/
def scaleCov (k : ℚ) (C : Covariance) : Covariance :=
  ⟨k * C.rr, k * C.rg, k * C.rb, k * C.gg, k * C.gb, k * C.bb⟩

theorem dot_scaleVec (k : ℚ) (u v : Vec3 ℚ) : u.dot (scaleVec k v) = k * u.dot v := by
  simp only [Vec3.dot, scaleVec]
  ring

theorem dot_scaleVec_self (k : ℚ) (v : Vec3 ℚ) : (scaleVec k v).dot (scaleVec k v) = k ^ 2 * v.dot v := by
  simp only [Vec3.dot, scaleVec]
  ring

theorem scaleVec_comm (j k : ℚ) (v : Vec3 ℚ) : scaleVec j (scaleVec k v) = scaleVec k (scaleVec j v) := by
  simp only [scaleVec, mul_left_comm]

theorem dot_self_nonneg (v : Vec3 ℚ) : 0 ≤ v.dot v :=
  add_nonneg (add_nonneg (mul_self_nonneg v.r) (mul_self_nonneg v.g)) (mul_self_nonneg v.b)

theorem dot_self_eq_zero {v : Vec3 ℚ} (h : v.dot v = 0) : v = ⟨0, 0, 0⟩ := by
  obtain ⟨r, g, b⟩ := v
  have hr := mul_self_nonneg r
  have hg := mul_self_nonneg g
  have hb := mul_self_nonneg b
  simp only [Vec3.dot] at h
  rw [mul_self_eq_zero.1 (show r * r = 0 by linarith), mul_self_eq_zero.1 (show g * g = 0 by linarith),
    mul_self_eq_zero.1 (show b * b = 0 by linarith)]

/-! ### The power iteration is linear in the seed and in the covariance (R94) -/

theorem powerStep_scaleVec (C : Covariance) (k : ℚ) (d : Vec3 ℚ) :
    powerStep C (scaleVec k d) = scaleVec k (powerStep C d) := by
  simp only [powerStep, scaleVec, Vec3.mk.injEq]
  refine ⟨?_, ?_, ?_⟩ <;> ring

theorem powerStep_scaleCov (C : Covariance) (k : ℚ) (d : Vec3 ℚ) :
    powerStep (scaleCov k C) d = powerStep C (scaleVec k d) := by
  simp only [powerStep, scaleVec, scaleCov, Vec3.mk.injEq]
  refine ⟨?_, ?_, ?_⟩ <;> ring

theorem powerIterate_scaleVec (C : Covariance) (k : ℚ) (n : Nat) (d : Vec3 ℚ) :
    powerIterate C n (scaleVec k d) = scaleVec k (powerIterate C n d) := by
  induction n generalizing d with
  | zero => rfl
  | succ n ih => rw [powerIterate, powerStep_scaleVec, ih, powerIterate]

/-- "`d` becomes `k³·d`" (R102), for any number of steps. -/
theorem powerIterate_scaleCov (C : Covariance) (k : ℚ) (n : Nat) (d : Vec3 ℚ) :
    powerIterate (scaleCov k C) n d = scaleVec (k ^ n) (powerIterate C n d) := by
  induction n generalizing d with
  | zero => simp [powerIterate, scaleVec]
  | succ n ih =>
    rw [powerIterate, ih, powerStep_scaleCov, powerStep_scaleVec, powerIterate_scaleVec, powerIterate]
    simp only [scaleVec, pow_succ, mul_assoc]

/-! ### The extreme line parameters (R95) -/

theorem projections_scaleVec (ss : List (Vec3 ℚ)) (k : ℚ) (d : Vec3 ℚ) :
    projections ss (scaleVec k d) = (projections ss d).map (k * ·) := by
  simp [projections, dot_scaleVec]

/-- `tMin` is `tMax` along the reversed direction, negated, so every law of `tMax` gives one of `tMin`. -/
theorem tMin_eq_neg_tMax (ss : List (Vec3 ℚ)) (d : Vec3 ℚ) : tMin ss d = -tMax ss (scaleVec (-1) d) := by
  rw [tMin, tMax, min?_getD_eq_neg, ← projections_scaleVec, dot_scaleVec, dot_scaleVec_self]
  ring_nf

theorem lineScale_sq_mul {k : ℚ} (hk : 0 < k) (L : ℚ) : lineScale (k ^ 2 * L) = lineScale L / k ^ 2 := by
  have hk2 : k ^ 2 ≠ 0 := by positivity
  by_cases hL : L = 0
  · simp [lineScale, hL]
  · rw [lineScale, if_neg (mul_ne_zero hk2 hL), lineScale, if_neg hL]
    field_simp

theorem tMax_scaleVec (ss : List (Vec3 ℚ)) {k : ℚ} (hk : 0 < k) (d : Vec3 ℚ) :
    tMax ss (scaleVec k d) = tMax ss d / k := by
  rw [tMax, tMax, projections_scaleVec, max?_getD_map_mul hk, dot_scaleVec, dot_scaleVec_self, lineScale_sq_mul hk]
  field_simp

theorem tMin_scaleVec (ss : List (Vec3 ℚ)) {k : ℚ} (hk : 0 < k) (d : Vec3 ℚ) :
    tMin ss (scaleVec k d) = tMin ss d / k := by
  rw [tMin_eq_neg_tMax, scaleVec_comm, tMax_scaleVec ss hk, tMin_eq_neg_tMax, neg_div]

/-- The mean's projection is the mean of the projections. -/
theorem mean_dot (ss : List (Vec3 ℚ)) (d : Vec3 ℚ) : (mean ss).dot d = (projections ss d).sum / 16 := by
  unfold projections Vec3.dot mean
  dsimp only
  simp only [List.sum_map_add, List.sum_map_mul_right]
  ring

theorem tMax_nonneg {ss : List (Vec3 ℚ)} (h : ss.length = 16) (d : Vec3 ℚ) : 0 ≤ tMax ss d := by
  have hscale : 0 ≤ lineScale (d.dot d) := by
    unfold lineScale
    split
    · exact le_rfl
    · exact one_div_nonneg.2 (dot_self_nonneg d)
  have hsum := List.sum_le_card_nsmul (projections ss d) _ fun x hx => le_max?_getD hx
  rw [projections, List.length_map, h, ← projections, nsmul_eq_mul] at hsum
  refine mul_nonneg ?_ hscale
  rw [mean_dot]
  push_cast at hsum
  linarith

theorem tMin_nonpos {ss : List (Vec3 ℚ)} (h : ss.length = 16) (d : Vec3 ℚ) : tMin ss d ≤ 0 := by
  rw [tMin_eq_neg_tMax]
  exact neg_nonpos.2 (tMax_nonneg h _)

/-! ### The endpoints along a scaled direction, and of permuted samples (R102) -/

theorem endpoint_scaleVec (m : Vec3 ℚ) (t : ℚ) {k : ℚ} (hk : 0 < k) (d : Vec3 ℚ) :
    endpoint m (t / k) (scaleVec k d) = endpoint m t d := by
  have hmul : ∀ y, t / k * (k * y) = t * y := fun y => by field_simp
  simp only [endpoint, scaleVec, hmul]

theorem lineEndpoints_scaleVec (ss : List (Vec3 ℚ)) {k : ℚ} (hk : 0 < k) (d : Vec3 ℚ) :
    lineEndpoints ss (scaleVec k d) = lineEndpoints ss d := by
  simp only [lineEndpoints, tMax_scaleVec ss hk, tMin_scaleVec ss hk, endpoint_scaleVec _ _ hk]

section Permutation
variable {ss ss' : List (Vec3 ℚ)} (h : ss.Perm ss')
include h

theorem sum_map_perm (f : Vec3 ℚ → ℚ) : (ss.map f).sum = (ss'.map f).sum := (h.map f).sum_eq

theorem mean_perm : mean ss = mean ss' := by
  simp only [mean, sum_map_perm h]

theorem direction_perm : direction ss = direction ss' := by
  simp only [direction, covariance, covTerm, mean_perm h, sum_map_perm h]

theorem tMax_perm (d : Vec3 ℚ) : tMax ss d = tMax ss' d := by
  rw [tMax, tMax, mean_perm h, projections, projections, max?_perm (h.map _)]

theorem lineEndpoints_perm (d : Vec3 ℚ) : lineEndpoints ss d = lineEndpoints ss' d := by
  simp only [lineEndpoints, tMin_eq_neg_tMax, mean_perm h, tMax_perm h]

end Permutation

theorem fitLine_perm {l l' : List Rgb} (h : l.Perm l') : fitLine l = fitLine l' := by
  have hmap : (l.map Vec3.toRat).Perm (l'.map Vec3.toRat) := h.map _
  simp only [fitLine, direction_perm hmap, lineEndpoints_perm hmap]

/-- Settles O38: the fitter is linear up to a positive factor of the direction, which the endpoints do not see; sums
and extremes do not see the order of the samples; and an extreme is on its side of the mean. -/
theorem fitInvariances : Obligations.FitInvariances := by
  refine ⟨fun ss C d k hk => ⟨?_, ?_⟩, fun l l' => fitLine_perm, fun ss d h => ⟨tMax_nonneg h d, tMin_nonpos h d⟩⟩
  · exact (congrArg _ (powerIterate_scaleCov C k _ d)).trans (lineEndpoints_scaleVec ss (pow_pos hk _) _)
  · exact (congrArg _ (powerIterate_scaleVec C k _ d)).trans (lineEndpoints_scaleVec ss hk _)

end Sys2Proof.Machine

namespace Sys2Proof.Machine

/-! ### Quantization (R96) -/

/-- `Quantize8` is the floor it is written as: after the clamp it fits a byte. -/
theorem quantize8_toNat {x : ℚ} {n : Nat} (h : (n : Int) = ⌊min (max x 0) 255 + 1 / 2⌋) : (quantize8 x).toNat = n := by
  have hn : (n : ℚ) ≤ min (max x 0) 255 + 1 / 2 := by exact_mod_cast Int.le_floor.1 h.le
  have hn256 : (n : ℚ) < 256 := by linarith [min_le_right (max x 0) (255 : ℚ)]
  have hlt : n < 256 := by exact_mod_cast hn256
  have hq : quantize8 x = BitVec.ofInt 8 n := congrArg _ h.symm
  rw [hq, BitVec.ofInt_natCast, BitVec.toNat_ofNat, Nat.mod_eq_of_lt hlt]

theorem quantize8_byte (b : Byte) : quantize8 (b.toNat : ℚ) = b := by
  have hb : (b.toNat : ℚ) ≤ 255 := by exact_mod_cast Nat.le_of_lt_succ b.isLt
  refine BitVec.eq_of_toNat_eq (quantize8_toNat ?_)
  rw [max_eq_left (Nat.cast_nonneg _), min_eq_left hb, eq_comm, Int.floor_eq_iff]
  push_cast
  constructor <;> linarith

/-! ### The covariance as a quadratic form, and its kernel (R99) -/

theorem dot_powerStep_comm (C : Covariance) (u v : Vec3 ℚ) : u.dot (powerStep C v) = (powerStep C u).dot v := by
  simp only [Vec3.dot, powerStep]
  ring

/-- `v·(C v)` is the sum of the squared projections of the centered samples (R93). -/
theorem dot_powerStep_covariance (ss : List (Vec3 ℚ)) (v : Vec3 ℚ) :
    v.dot (powerStep (covariance ss) v) = (ss.map fun s => (s.sub (mean ss)).dot v ^ 2).sum := by
  unfold covariance
  generalize mean ss = m
  induction ss with
  | nil => simp [covTerm, powerStep, Vec3.dot]
  | cons s ss ih =>
    rw [List.map_cons, List.sum_cons, ← ih]
    simp only [covTerm, powerStep, Vec3.dot, Vec3.sub, Vec3.get, List.map_cons, List.sum_cons]
    ring

/-- A symmetric matrix has no vector that only its square takes to zero: `Cd·Cd = d·C(Cd)`. -/
theorem powerStep_eq_zero_of_twice {C : Covariance} {d : Vec3 ℚ} (h : powerStep C (powerStep C d) = ⟨0, 0, 0⟩) :
    powerStep C d = ⟨0, 0, 0⟩ := by
  apply dot_self_eq_zero
  rw [← dot_powerStep_comm, h]
  simp [Vec3.dot]

theorem powerStep_eq_zero_of_powerIterate {C : Covariance} (n : Nat) {d : Vec3 ℚ}
    (h : powerIterate C (n + 1) d = ⟨0, 0, 0⟩) : powerStep C d = ⟨0, 0, 0⟩ := by
  induction n generalizing d with
  | zero => exact h
  | succ n ih => exact powerStep_eq_zero_of_twice (ih h)

/-- A zero direction means that every sample projects onto the seed as the mean does. -/
theorem dot_seed_of_direction_eq_zero {ss : List (Vec3 ℚ)} (h : direction ss = ⟨0, 0, 0⟩) {s : Vec3 ℚ} (hs : s ∈ ss) :
    s.dot Config.seed = (mean ss).dot Config.seed := by
  have hstep : powerStep (covariance ss) Config.seed = ⟨0, 0, 0⟩ := powerStep_eq_zero_of_powerIterate 2 h
  have hsum := dot_powerStep_covariance ss Config.seed
  rw [hstep, show Config.seed.dot ⟨0, 0, 0⟩ = 0 by simp [Vec3.dot]] at hsum
  have hsq := List.all_zero_of_le_zero_le_of_sum_eq_zero
    (List.forall_mem_map.2 fun u _ => sq_nonneg ((u.sub (mean ss)).dot Config.seed)) hsum.symm
    (List.mem_map_of_mem hs)
  have hzero := sq_eq_zero_iff.1 hsq
  simp only [Vec3.dot, Vec3.sub] at hzero ⊢
  linarith

/-! ### The seed tells any two colors apart (R99) -/

/-- The seed's row, times 2^22, is 0 on no other difference of two colors than 0. The two other integer rows are nearly
parallel to the seed, so on differences of colors they are below 1 in absolute value wherever the seed's row is 0; the
three rows are independent. -/
theorem seedRow_eq_zero {r g b : ℤ} (hr : |r| ≤ 255) (hg : |g| ≤ 255) (hb : |b| ≤ 255)
    (h : 4194304 * r + 11401300 * g + 13176795 * b = 0) : r = 0 ∧ g = 0 ∧ b = 0 := by
  rw [abs_le] at hr hg hb
  have h1 : 41577 * r + 113018 * g + 130618 * b = 0 := by
    rw [← Int.abs_lt_one_iff, abs_lt]
    constructor <;> linarith
  have h2 : 105641 * r + 287162 * g + 331881 * b = 0 := by
    rw [← Int.abs_lt_one_iff, abs_lt]
    constructor <;> linarith
  refine ⟨?_, ?_, ?_⟩ <;> linarith

theorem abs_byte_sub_le (x y : Byte) : |(x.toNat : ℤ) - y.toNat| ≤ 255 := by
  rw [abs_le]
  omega

theorem dot_seed_injective {c c' : Rgb} (h : c.toRat.dot Config.seed = c'.toRat.dot Config.seed) : c = c' := by
  have hrow : 4194304 * ((c.r.toNat : ℤ) - c'.r.toNat) + 11401300 * ((c.g.toNat : ℤ) - c'.g.toNat) +
      13176795 * ((c.b.toNat : ℤ) - c'.b.toNat) = 0 := by
    simp only [Vec3.dot, Vec3.toRat, Config.seed] at h
    have hq : 4194304 * ((c.r.toNat : ℚ) - c'.r.toNat) + 11401300 * ((c.g.toNat : ℚ) - c'.g.toNat) +
        13176795 * ((c.b.toNat : ℚ) - c'.b.toNat) = 0 := by linarith
    exact_mod_cast hq
  obtain ⟨hr, hg, hb⟩ := seedRow_eq_zero (abs_byte_sub_le _ _) (abs_byte_sub_le _ _) (abs_byte_sub_le _ _) hrow
  obtain ⟨r, g, b⟩ := c
  obtain ⟨r', g', b'⟩ := c'
  dsimp only at hr hg hb
  simp only [Vec3.mk.injEq, ← BitVec.toNat_inj]
  omega

theorem mem_rgbSamples (s : State) {i : Nat} (hi : i < 16) : s.rgb i ∈ s.rgbSamples :=
  List.mem_map_of_mem (List.mem_range.2 hi)

/-- Where two samples differ, the fit has a direction (R99). -/
theorem direction_ne_zero {s : State} {i j : Nat} (hi : i < 16) (hj : j < 16) (hij : s.rgb i ≠ s.rgb j) :
    direction (s.rgbSamples.map Vec3.toRat) ≠ ⟨0, 0, 0⟩ := by
  intro h
  have hmean : ∀ k < 16, (s.rgb k).toRat.dot Config.seed = (mean (s.rgbSamples.map Vec3.toRat)).dot Config.seed :=
    fun k hk => dot_seed_of_direction_eq_zero h (List.mem_map_of_mem (mem_rgbSamples s hk))
  exact hij (dot_seed_injective ((hmean i hi).trans (hmean j hj).symm))

/-! ### Solid blocks (R99) -/

theorem rgbSamples_solid {s : State} {c : Rgb} (h : ∀ i < 16, s.rgb i = c) :
    s.rgbSamples.map Vec3.toRat = List.replicate 16 c.toRat := by
  have hsamples : s.rgbSamples = List.replicate 16 c :=
    List.eq_replicate_iff.2 ⟨by simp [State.rgbSamples, Config.sampleCount], by
      simpa [State.rgbSamples, Config.sampleCount] using h⟩
  rw [hsamples, List.map_replicate]

theorem mean_solid (v : Vec3 ℚ) : mean (List.replicate 16 v) = v := by
  simp only [mean, List.map_replicate, List.sum_replicate, nsmul_eq_mul, Nat.cast_ofNat]
  simp only [mul_div_cancel_left₀ _ (show (16 : ℚ) ≠ 0 by norm_num)]

theorem covariance_solid (v : Vec3 ℚ) : covariance (List.replicate 16 v) = ⟨0, 0, 0, 0, 0, 0⟩ := by
  simp only [covariance, covTerm, mean_solid, List.map_replicate, sub_self, mul_zero, List.sum_replicate, nsmul_zero]

theorem direction_solid (v : Vec3 ℚ) : direction (List.replicate 16 v) = ⟨0, 0, 0⟩ := by
  simp only [direction, covariance_solid, Config.powerSteps, powerIterate, powerStep, mul_zero, add_zero]

/-- Along the zero direction the scale is 0 (R95). -/
theorem tMax_zero (ss : List (Vec3 ℚ)) : tMax ss ⟨0, 0, 0⟩ = 0 := by
  simp [tMax, lineScale, Vec3.dot]

theorem tMin_zero (ss : List (Vec3 ℚ)) : tMin ss ⟨0, 0, 0⟩ = 0 := by
  simp [tMin, lineScale, Vec3.dot]

theorem lineEndpoints_solid (c : Rgb) : lineEndpoints (List.replicate 16 c.toRat) ⟨0, 0, 0⟩ = (c, c) := by
  simp only [lineEndpoints, mean_solid, endpoint, mul_zero, add_zero, Vec3.toRat, quantize8_byte]

/-- Settles O37: a solid block has no covariance; and a direction that is zero would give two samples one projection
onto the seed, which tells all colors apart. -/
theorem fitDirectionIsZeroOnlyOnSolidBlocks : Obligations.FitDirectionIsZeroOnlyOnSolidBlocks := by
  constructor
  · rintro s c _ hw hc rfl
    have hfit : fitLine s.rgbSamples = (pack565 c.r c.g c.b, pack565 c.r c.g c.b) := by
      rw [fitLine, rgbSamples_solid hc, direction_solid, lineEndpoints_solid, packOrdered_self]
    rw [exec_fit s hw, hfit, rgbSamples_solid hc, direction_solid]
    exact ⟨covariance_solid _, rfl, by simp [Vec3.dot], tMax_zero _, tMin_zero _, lineEndpoints_solid c, rfl⟩
  · rintro s _ ⟨i, j, hi, hj, hij⟩ rfl
    have hd := direction_ne_zero hi hj hij
    exact ⟨hd, lt_of_le_of_ne (dot_self_nonneg _) fun h => hd (dot_self_eq_zero h.symm)⟩

end Sys2Proof.Machine

namespace Sys2Proof.Machine

/-! ### The formulas of R101 over the 16 samples -/

/-- The vector with the given channels. -/
def ofChannels (f : Channel → ℚ) : Vec3 ℚ := ⟨f .r, f .g, f .b⟩

@[simp] theorem get_ofChannels (f : Channel → ℚ) (c : Channel) : (ofChannels f).get c = f c := by
  cases c <;> rfl

/-- A sum over the samples as a sum over their numbers. -/
theorem rgbSamples_map_sum (s : State) (f : Vec3 ℚ → ℚ) :
    ((s.rgbSamples.map Vec3.toRat).map f).sum = ∑ i : Fin 16, f (s.rgb i).toRat := by
  rw [← Finset.sum_range fun i => f (s.rgb i).toRat, State.rgbSamples, List.map_map, List.map_map]
  rfl

section Samples
variable {s : State} {x : Fin 16 → Channel → ℚ} (hx : ∀ i c, x i c = (((s.rgb i).get c).toNat : ℚ))
include hx

theorem toRat_eq_ofChannels (i : Fin 16) : (s.rgb i).toRat = ofChannels (x i) := by
  simp only [ofChannels, hx]
  rfl

theorem mean_eq_ofChannels {m : Channel → ℚ} (hm : ∀ c, m c = (∑ i, x i c) / 16) :
    mean (s.rgbSamples.map Vec3.toRat) = ofChannels m := by
  simp only [mean, rgbSamples_map_sum, toRat_eq_ofChannels hx, ofChannels, hm]

theorem covTerm_eq_sum (m : Channel → ℚ) (c k : Channel) :
    covTerm (s.rgbSamples.map Vec3.toRat) (ofChannels m) c k = ∑ i, (x i c - m c) * (x i k - m k) := by
  simp only [covTerm, rgbSamples_map_sum, toRat_eq_ofChannels hx, get_ofChannels]

theorem mem_projections (d : Channel → ℚ) (p : ℚ) : p ∈ projections (s.rgbSamples.map Vec3.toRat) (ofChannels d) ↔
    ∃ i, x i .r * d .r + x i .g * d .g + x i .b * d .b = p := by
  have hdot : ∀ i, x i .r * d .r + x i .g * d .g + x i .b * d .b = (s.rgb i).toRat.dot (ofChannels d) := by
    intro i
    rw [toRat_eq_ofChannels hx]
    rfl
  simp [hdot, projections, State.rgbSamples, Config.sampleCount, Fin.exists_iff]

theorem max?_projections {d : Channel → ℚ} {M : ℚ} (hle : ∀ i, x i .r * d .r + x i .g * d .g + x i .b * d .b ≤ M)
    (hmem : ∃ i, x i .r * d .r + x i .g * d .g + x i .b * d .b = M) :
    (projections (s.rgbSamples.map Vec3.toRat) (ofChannels d)).max? = some M := by
  refine List.max?_eq_some_iff.2 ⟨(mem_projections hx d M).2 hmem, fun p hp => ?_⟩
  obtain ⟨i, rfl⟩ := (mem_projections hx d p).1 hp
  exact hle i

theorem min?_projections {d : Channel → ℚ} {M : ℚ} (hle : ∀ i, M ≤ x i .r * d .r + x i .g * d .g + x i .b * d .b)
    (hmem : ∃ i, x i .r * d .r + x i .g * d .g + x i .b * d .b = M) :
    (projections (s.rgbSamples.map Vec3.toRat) (ofChannels d)).min? = some M := by
  refine List.min?_eq_some_iff.2 ⟨(mem_projections hx d M).2 hmem, fun p hp => ?_⟩
  obtain ⟨i, rfl⟩ := (mem_projections hx d p).1 hp
  exact hle i

end Samples

/-- The power iteration runs along any sequence that takes its steps (R94). -/
theorem powerIterate_eq_ofChannels {C : Covariance} {d : Nat → Channel → ℚ}
    (hd : ∀ n, powerStep C (ofChannels (d n)) = ofChannels (d (n + 1))) (n k : Nat) :
    powerIterate C n (ofChannels (d k)) = ofChannels (d (k + n)) := by
  induction n generalizing k with
  | zero => rfl
  | succ n ih => rw [powerIterate, hd, ih, Nat.add_assoc, Nat.add_comm 1]

theorem direction_eq_ofChannels {ss : List (Vec3 ℚ)} {m : Channel → ℚ} {C : Channel → Channel → ℚ}
    {d : Nat → Channel → ℚ} (hmean : mean ss = ofChannels m) (hcov : ∀ c k, covTerm ss (ofChannels m) c k = C c k)
    (hsymm : ∀ c k, C c k = C k c) (h0 : ofChannels (d 0) = Config.seed)
    (hd : ∀ n j, d (n + 1) j = d n .r * C .r j + d n .g * C .g j + d n .b * C .b j) :
    direction ss = ofChannels (d 3) := by
  rw [direction, ← h0]
  refine powerIterate_eq_ofChannels (fun n => ?_) 3 0
  simp only [covariance, hmean, hcov]
  simp only [powerStep, ofChannels, hd, hsymm .g .r, hsymm .b .r, hsymm .b .g]

/-- A packed endpoint, from the integers that R96's floors give. -/
theorem pack565_endpoint_toNat {m d : Channel → ℚ} {t : ℚ} {E : Channel → Nat}
    (hE : ∀ c, (E c : Int) = ⌊min (max (m c + t * d c) 0) 255 + 1 / 2⌋) :
    (pack565 (endpoint (ofChannels m) t (ofChannels d)).r (endpoint (ofChannels m) t (ofChannels d)).g
      (endpoint (ofChannels m) t (ofChannels d)).b).toNat = E .r / 8 * 2048 + E .g / 4 * 32 + E .b / 8 := by
  rw [pack565_toNat]
  simp only [endpoint, ofChannels, quantize8_toNat (hE _)]
  ring

/-- Settles O35: each formula is the model's function of the same name on the samples as a list. -/
theorem fitComputesTheSpecFormula : Obligations.FitComputesTheSpecFormula := by
  intro s x m C d L mc dotMax dotMin scale E0 E1 p0 p1 hw hx hm hC h0 hd hL hmc hMax hMax' hMin hMin' hscale hE0 hE1
    hp0 hp1
  have hmean := mean_eq_ofChannels hx hm
  have hdir : direction (s.rgbSamples.map Vec3.toRat) = ofChannels (d 3) := by
    have hcov := fun c k => (covTerm_eq_sum hx m c k).trans (hC c k).symm
    refine direction_eq_ofChannels hmean hcov (fun c k => ?_) ?_ hd
    · simp only [hC, mul_comm]
    · obtain ⟨hr, hg, hb⟩ := h0
      norm_num [ofChannels, Config.seed, hr, hg, hb]
  have hScale : lineScale ((ofChannels (d 3)).dot (ofChannels (d 3))) = scale := by
    rw [hscale, hL]
    rfl
  have hMc : (ofChannels m).dot (ofChannels (d 3)) = mc := hmc.symm
  have hE : lineEndpoints (s.rgbSamples.map Vec3.toRat) (direction (s.rgbSamples.map Vec3.toRat)) =
      (endpoint (ofChannels m) ((dotMax - mc) * scale) (ofChannels (d 3)),
        endpoint (ofChannels m) ((dotMin - mc) * scale) (ofChannels (d 3))) := by
    rw [hdir, lineEndpoints, tMax, tMin, hmean, max?_projections hx hMax hMax', min?_projections hx hMin hMin', hMc,
      hScale, Option.getD_some, Option.getD_some]
  obtain ⟨t, ht, hframe, hmax, hmin⟩ := exec_fit_fields hw hE
  rw [pack565_endpoint_toNat hE0, pack565_endpoint_toNat hE1, ← hp0, ← hp1] at hmax hmin
  exact ⟨t, ht, hframe, hmax, hmin⟩

end Sys2Proof.Machine

namespace Sys2Proof.Machine

/-! ### The position on a line of positive length (R112, R117) -/

theorem linePosition_of_pos {L : Int} (hL : 0 < L) (n : Int) :
    linePosition L n = (min (max ((6 * n + L) / (2 * L)) 0) 3).toNat :=
  if_neg hL.ne'

/-- The integer quotient of R117 is the line parameter in thirds, rounded half up (R112). -/
theorem floor_lineParameter {L : Int} (hL : 0 < L) (n : Int) :
    ⌊3 * ((n : ℚ) / L) + 1 / 2⌋ = (6 * n + L) / (2 * L) := by
  have hL0 : (L : ℚ) ≠ 0 := by exact_mod_cast hL.ne'
  have hquot : 3 * ((n : ℚ) / L) + 1 / 2 = ((6 * n + L : Int) : ℚ) / (2 * L : Int) := by
    push_cast
    field_simp
    ring
  rw [hquot, Int.floor_div_cast_of_nonneg (by omega), Int.floor_intCast]

/-- "Moving a sample along δ never lowers its position" (R119). -/
theorem linePosition_mono {L n n' : Int} (hL : 0 < L) (hn : n ≤ n') : linePosition L n ≤ linePosition L n' := by
  have hquot : (6 * n + L) / (2 * L) ≤ (6 * n' + L) / (2 * L) := Int.ediv_le_ediv (by omega) (by omega)
  rw [linePosition_of_pos hL, linePosition_of_pos hL]
  omega

theorem linePosition_before {L n : Int} (hL : 0 < L) (hn : n ≤ 0) : linePosition L n = 0 := by
  have hquot : (6 * n + L) / (2 * L) < 1 := Int.ediv_lt_of_lt_mul (by omega) (by omega)
  rw [linePosition_of_pos hL]
  omega

theorem linePosition_past {L n : Int} (hL : 0 < L) (hn : L ≤ n) : linePosition L n = 3 := by
  have hquot : 3 ≤ (6 * n + L) / (2 * L) := Int.le_ediv_of_mul_le (by omega) (by omega)
  rw [linePosition_of_pos hL]
  omega

/-! ### The length of the line between two colors (R111) -/

theorem eq_of_toRat_sub_eq_zero {u v : Rgb} (h : v.toRat.sub u.toRat = ⟨0, 0, 0⟩) : u = v := by
  simp only [Vec3.sub, Vec3.toRat, Vec3.mk.injEq, sub_eq_zero, Nat.cast_inj, BitVec.toNat_inj] at h
  obtain ⟨hr, hg, hb⟩ := h
  cases u
  cases v
  dsimp only at hr hg hb
  rw [hr, hg, hb]

/-- The integer products of R117 are those of R111 in exact rationals. -/
theorem cast_dot_toInt (u v s w : Rgb) : (((u.toInt.sub v.toInt).dot (s.toInt.sub w.toInt) : Int) : ℚ) =
    (u.toRat.sub v.toRat).dot (s.toRat.sub w.toRat) := by
  simp only [Vec3.dot, Vec3.sub, Vec3.toInt, Vec3.toRat]
  push_cast
  rfl

theorem lineLength_pos {u v : Rgb} (h : u ≠ v) : 0 < (v.toInt.sub u.toInt).dot (v.toInt.sub u.toInt) := by
  have hpos : 0 < (v.toRat.sub u.toRat).dot (v.toRat.sub u.toRat) :=
    lt_of_le_of_ne (dot_self_nonneg _) fun h0 => h (eq_of_toRat_sub_eq_zero (dot_self_eq_zero h0.symm))
  rw [← cast_dot_toInt] at hpos
  exact_mod_cast hpos

/-- A line is at longest the diagonal of the color cube: 3·255² (R112). -/
theorem lineLength_le (u v : Rgb) : (v.toInt.sub u.toInt).dot (v.toInt.sub u.toInt) ≤ 195075 := by
  have hsq : ∀ x y : Byte, ((x.toNat : Int) - y.toNat) * (x.toNat - y.toNat) ≤ 255 * 255 := by
    intro x y
    rw [← abs_mul_abs_self]
    exact mul_self_le_mul_self (abs_nonneg _) (abs_byte_sub_le x y)
  have hr := hsq v.r u.r
  have hg := hsq v.g u.g
  have hb := hsq v.b u.b
  simp only [Vec3.dot, Vec3.sub, Vec3.toInt]
  omega

/-! ### `cindex` sample by sample (R115, R118) -/

/-- `cindex` writes each sample's index into its 2-bit field of `RES`. -/
theorem exec_cindex_fields {s : State} (h : s.rgbWritten = true) :
    ∃ t, exec .cindex s = .next t ∧ t = { s with res := t.res } ∧
      (argLow s.arg = argHigh s.arg → t.res = 0) ∧
      ∀ i < 16, (t.res.extractLsb' (2 * i) 2).toNat =
        colorIndex (unpack565 (argLow s.arg)) (unpack565 (argHigh s.arg)) (s.rgb i) := by
  have hlen : s.rgbSamples.length = 16 := by simp [State.rgbSamples, Config.sampleCount]
  refine ⟨_, exec_cindex s h, rfl, fun heq => ?_, fun i hi => ?_⟩
  · rw [putRes_res, heq, colorIndices_self]
  · rw [putRes_res, colorIndices_field _ _ _ i (by omega) (by omega)]
    simp [State.rgbSamples]

/-- Settles O39: a field is the remapped position, and the integer L and n of the model are the rational ones. -/
theorem cindexAssignsEveryIndex : Obligations.CindexAssignsEveryIndex := by
  intro s hw
  obtain ⟨t, ht, hframe, hsolid, hfield⟩ := exec_cindex_fields hw
  refine ⟨t, ht, hframe, hsolid, ?_⟩
  rintro i _ _ _ _ _ L n hi hne rfl rfl rfl rfl hL hn rfl
  rw [← cast_dot_toInt, Int.cast_inj] at hL hn
  have hpos : 0 < L := hL ▸ lineLength_pos (mt (unpack565_inj _ _).1 hne)
  refine ⟨hpos, hL ▸ lineLength_le _ _, floor_lineParameter hpos n, ?_⟩
  rw [floor_lineParameter hpos, ← linePosition_of_pos hpos, hfield i hi, colorIndex, hL, hn]
  rfl

/-- Settles O40: the first endpoint projects to 0 and the second to L, the two ends of the positions. -/
theorem indexerProperties : Obligations.IndexerProperties := by
  refine ⟨fun c0 c1 hne => ?_, fun L n n' => linePosition_mono,
    fun L n hL => ⟨linePosition_before hL, linePosition_past hL⟩⟩
  have hpos := lineLength_pos (mt (unpack565_inj c0 c1).1 hne)
  have hstart : ((unpack565 c1).toInt.sub (unpack565 c0).toInt).dot
      ((unpack565 c0).toInt.sub (unpack565 c0).toInt) = 0 := by simp [Vec3.dot, Vec3.sub]
  constructor
  · rw [colorIndex, linePosition_before hpos hstart.le]
    rfl
  · rw [colorIndex, linePosition_past hpos le_rfl]
    rfl

/-! ### A word of a record in `OUT` (R45, R46) -/

theorem getElem_wordBytes (v : Word) (k : Nat) (hk : k < (wordBytes v).length) :
    (wordBytes v)[k] = v.extractLsb' (8 * k) 8 := by
  rw [wordBytes_length] at hk
  interval_cases k <;> rfl

/-- A port read of a word that stands in a record returns it. -/
theorem readLE_putRecord_word (s : State) (pre post : List Byte) (v : Word) (n : BitVec 5) :
    (s.putRecord (pre ++ wordBytes v ++ post) n).readLE (outBase + pre.length) 4 = v := by
  refine word_ext_bytes fun k hk => ?_
  have hlt : pre.length + k < (pre ++ wordBytes v).length := by simpa using hk
  rw [extract_readLE _ _ _ _ hk le_rfl, Nat.add_assoc, ← State.out, out_putRecord _ _ _ _ (by simp; omega),
    List.getElem_append_left hlt, List.getElem_append_right (Nat.le_add_right _ _)]
  simp only [Nat.add_sub_cancel_left, getElem_wordBytes]

theorem out_eq_extract_readLE (t : State) (k : Nat) {j : Nat} (hj : j < 4) :
    t.out (k + j) = (t.readLE (outBase + k) 4).extractLsb' (8 * j) 8 := by
  rw [extract_readLE _ _ _ _ hj le_rfl, State.out, Nat.add_assoc]

theorem outHalf_eq_extract_readLE (t : State) (k : Nat) {j : Nat} (hj : j < 3) :
    t.outHalf (k + j) = (t.readLE (outBase + k) 4).extractLsb' (8 * j) 16 := by
  rw [State.outHalf, Nat.add_assoc, out_eq_extract_readLE t k (by omega), out_eq_extract_readLE t k (by omega)]
  exact BitVec.extractLsb'_append_extractLsb'_eq_extractLsb' (by omega)

/-! ### The color block as two words (R68, R69, R116) -/

/-- The bytes of a pair `{color1, color0}` are those of color0 and then those of color1 (R65, R68). -/
theorem wordBytes_pair (c1 c0 : Half) : wordBytes (c1 ++ c0) =
    [c0.extractLsb' 0 8, c0.extractLsb' 8 8, c1.extractLsb' 0 8, c1.extractLsb' 8 8] := by
  have hlow : ∀ i, i + 8 ≤ 16 → (c1 ++ c0).extractLsb' i 8 = c0.extractLsb' i 8 := fun i hi => by
    rw [← append_low c1 c0, extract_extract _ _ _ hi, append_low, Nat.zero_add]
  have hhigh : ∀ i, i + 8 ≤ 16 → (c1 ++ c0).extractLsb' (16 + i) 8 = c1.extractLsb' i 8 := fun i hi => by
    rw [← extract_extract _ _ _ hi, append_high]
  rw [wordBytes, hlow 0 (by decide), hlow 8 (by decide), hhigh 0 (by decide), hhigh 8 (by decide)]

/-- A color block is the pair word of `fit` and then the index word, each low byte first. -/
theorem colorBlock_eq_words (ss : List Rgb) : colorBlock ss =
    wordBytes ((fitLine ss).2 ++ (fitLine ss).1) ++
      wordBytes (colorIndices ss (fitLine ss).1 (fitLine ss).2) := by
  rw [wordBytes_pair]
  rfl

/-- The record of `bc1` holds the color block at byte 0, that of `bc3` at byte 8 (R74, R151, R152). -/
theorem exec_colorBlock_record {i : Instr} {s t : State} {k : Nat} (hi : i = .bc1 ∧ k = 0 ∨ i = .bc3 ∧ k = 8)
    (h : exec i s = .next t) :
    ∃ pre post n, pre.length = k ∧ t = s.putRecord (pre ++ colorBlock s.rgbSamples ++ post) n := by
  rcases hi with ⟨rfl, rfl⟩ | ⟨rfl, rfl⟩
  · exact ⟨[], zeroTail, 8, rfl, (whenWritten_eq_next.1 h).2⟩
  · refine ⟨alphaBlock s.alphaSamples, [], 16, rfl, ?_⟩
    rw [List.append_nil]
    exact (whenWritten_eq_next.1 h).2

/-- The two words at the color block's place in `OUT`. -/
theorem exec_colorBlock_words {i : Instr} {s t : State} {k : Nat} (hi : i = .bc1 ∧ k = 0 ∨ i = .bc3 ∧ k = 8)
    (h : exec i s = .next t) :
    t.readLE (outBase + k) 4 = (fitLine s.rgbSamples).2 ++ (fitLine s.rgbSamples).1 ∧
      t.readLE (outBase + (k + 4)) 4 =
        colorIndices s.rgbSamples (fitLine s.rgbSamples).1 (fitLine s.rgbSamples).2 := by
  obtain ⟨pre, post, n, rfl, rfl⟩ := exec_colorBlock_record hi h
  rw [colorBlock_eq_words, ← List.append_assoc]
  constructor
  · rw [List.append_assoc _ _ post]
    exact readLE_putRecord_word s pre _ _ n
  · have hlen : pre.length + 4 = (pre ++ wordBytes ((fitLine s.rgbSamples).2 ++ (fitLine s.rgbSamples).1)).length := by
      simp
    rw [hlen]
    exact readLE_putRecord_word s _ post _ n

/-- A 4-byte read of `OUT` with a record in it returns the word there. -/
theorem perform_ld_out_word {t : State} (ho : Status.olen t.status ≠ 0) {a : BitVec 8} {j : Nat}
    (ha : a.toNat = outBase + j) (hj : j < 16) (h4 : j % 4 = 0) :
    ∃ u, perform (.ld .word a) t = .next u ∧ u.returned = t.returned ++ [t.readLE (outBase + j) 4] := by
  have hbase : outBase = 0x40 := rfl
  have hread := memRead_out (w := .word) t (legalRead_memory (show a.toNat % 4 = 0 by omega) (by omega)) (by omega)
    (by omega)
  rw [if_neg ho, ha] at hread
  exact ⟨_, hread, rfl⟩

/-- `cindex` on the pair that `fit` leaves indexes the same samples against that pair (R100, R118). -/
theorem exec_fit_then_cindex {s : State} (hw : s.rgbWritten = true) :
    ∃ f x, exec .fit s = .next f ∧ exec .cindex { f with arg := f.res } = .next x ∧
      f.res = (fitLine s.rgbSamples).2 ++ (fitLine s.rgbSamples).1 ∧
      x.res = colorIndices s.rgbSamples (fitLine s.rgbSamples).1 (fitLine s.rgbSamples).2 := by
  refine ⟨_, _, exec_fit s hw, exec_cindex _ hw, rfl, ?_⟩
  rw [putRes_res, putRes_res, argLow, argHigh, append_low, append_high]
  exact congrArg (colorIndices · _ _) (rgbSamples_congr rfl rfl rfl)

/-- Settles O42: the two words of the record are the fitted pair and the index word of the same samples. -/
theorem bc1IsFitThenCindex : Obligations.Bc1IsFitThenCindex := by
  intro s hw
  obtain ⟨f, x, hf, hx, hfres, hxres⟩ := exec_fit_then_cindex hw
  obtain ⟨t, hbc1⟩ := exec_completes .bc1 s hw
  have ht : t = s.putRecord (colorBlock s.rgbSamples ++ zeroTail) 8 := (whenWritten_eq_next.1 hbc1).2
  obtain ⟨hpair, hindices⟩ := exec_colorBlock_words (.inl ⟨rfl, rfl⟩) hbc1
  have holen : Status.olen t.status = 8 := by simp [ht]
  have hrecord : Status.olen t.status ≠ 0 := by simp [holen]
  have hreturned : t.returned = s.returned := by simp [ht]
  obtain ⟨u, hu, hu'⟩ := perform_ld_out_word hrecord (a := 0x40) (j := 0) rfl (by decide) rfl
  obtain ⟨v, hv, hv'⟩ := perform_ld_out_word hrecord (a := 0x44) (j := 4) rfl (by decide) rfl
  rw [hreturned, hpair, ← hfres] at hu'
  rw [hreturned, hindices, ← hxres] at hv'
  have htail : ∀ j < 16, 8 ≤ j → t.out j = 0 := by
    intro j hj h8
    rw [ht, out_putRecord _ _ _ _ (by simpa using hj), List.getElem_append_right (by simpa using h8)]
    exact List.getElem_replicate _
  exact ⟨t, f, x, u, v, hbc1, hf, hx, hu, hu', hv, hv', htail, holen, by simp [ht], by simp [ht], by simp [ht],
    by simp [ht]⟩

/-- With color0 ≤ color1 the pair is equal, and every index is 0 (R114, R120). -/
theorem colorIndices_fitLine_eq_zero {ss : List Rgb} (h : (fitLine ss).1 ≤ (fitLine ss).2) :
    colorIndices ss (fitLine ss).1 (fitLine ss).2 = 0 := by
  rw [BitVec.le_antisymm h (fitLine_le ss), colorIndices_self]

/-- Settles O43: the pair is ordered, and where it is not strictly so the index word is 0. -/
theorem colorBlocksAreOpaque : Obligations.ColorBlocksAreOpaque := by
  intro i s t k hi h
  obtain ⟨hpair, hindices⟩ := exec_colorBlock_words hi h
  have hc0 : t.outHalf k = (fitLine s.rgbSamples).1 := by
    rw [← Nat.add_zero k, outHalf_eq_extract_readLE t k (by decide), hpair, append_low]
  have hc1 : t.outHalf (k + 2) = (fitLine s.rgbSamples).2 := by
    rw [outHalf_eq_extract_readLE t k (by decide), hpair, append_high]
  have hzero : t.outHalf k ≤ t.outHalf (k + 2) → ∀ j < 4, t.out (k + 4 + j) = 0 := by
    intro hle j hj
    rw [hc0, hc1] at hle
    rw [out_eq_extract_readLE t _ hj, hindices, colorIndices_fitLine_eq_zero hle]
    exact BitVec.extractLsb'_zero
  refine ⟨⟨?_, fun heq j hj h4 => ?_⟩, ?_⟩
  · rw [hc0, hc1]
    exact fitLine_le _
  · have := hzero (heq ▸ BitVec.le_refl _) (j - 4) (by omega)
    rwa [show k + 4 + (j - 4) = k + j by omega] at this
  · rintro ⟨hle, n, hn, h3⟩
    rw [hzero hle _ (by omega)] at h3
    simp at h3

end Sys2Proof.Machine

namespace Sys2Proof.Machine

/-! ### The alpha bucket (R133, R138) -/

/-- The scaled distance reaches the last bucket and no further, 7.9999 being below 8 (R133). -/
theorem alphaQuotient_le_seven {D k : Nat} (hk : k ≤ D) : 79999 * k / (10000 * D) ≤ 7 := by
  rcases Nat.eq_zero_or_pos D with rfl | hD
  · simp
  · exact Nat.lt_succ_iff.1 (Nat.div_lt_of_lt_mul (by omega))

/-- The integer quotient of R133 is the floor of the scaled distance in exact rationals. -/
theorem floor_scaledDistance (D k : Nat) :
    ⌊(k : ℚ) * (79999 / 10000) / D⌋ = ((79999 * k / (10000 * D) : Nat) : Int) := by
  have hquot : (k : ℚ) * (79999 / 10000) / D = ((79999 * k : Nat) : ℚ) / ((10000 * D : Nat) : ℚ) := by
    push_cast
    ring
  rw [hquot, Rat.floor_natCast_div_natCast]
  rfl

/-- At or below a0 the mask of R133 takes nothing away from the quotient. -/
theorem alphaBucket_eq_div {a0 a1 α : Nat} (hα : α ≤ a0) :
    alphaBucket a0 a1 α = 79999 * (α - a1) / (10000 * (a0 - a1)) :=
  Nat.and_two_pow_sub_one_of_lt_two_pow (n := 3)
    (Nat.lt_succ_iff.2 (alphaQuotient_le_seven (Nat.sub_le_sub_right hα a1)))

theorem alphaBucket_mono {a0 a1 α α' : Nat} (h : α ≤ α') (hα' : α' ≤ a0) :
    alphaBucket a0 a1 α ≤ alphaBucket a0 a1 α' := by
  rw [alphaBucket_eq_div hα', alphaBucket_eq_div (h.trans hα')]
  exact Nat.div_le_div_right (by omega)

/-- The bucket is a floor (R138): bucket `q` is the interval of width D/7.9999 that begins at `q` such widths. -/
theorem alphaBucket_eq_iff {a0 a1 α q : Nat} (ha : a1 < a0) (hα : α ≤ a0) : alphaBucket a0 a1 α = q ↔
    q * (10000 * (a0 - a1)) ≤ 79999 * (α - a1) ∧ 79999 * (α - a1) < (q + 1) * (10000 * (a0 - a1)) := by
  rw [alphaBucket_eq_div hα, Nat.div_eq_iff (by omega), Nat.add_mul, Nat.one_mul]
  omega

theorem alphaBucket_min {a0 a1 : Nat} (ha : a1 < a0) : alphaBucket a0 a1 a1 = 0 :=
  (alphaBucket_eq_iff ha ha.le).2 (by omega)

theorem alphaBucket_max {a0 a1 : Nat} (ha : a1 < a0) : alphaBucket a0 a1 a0 = 7 :=
  (alphaBucket_eq_iff ha le_rfl).2 (by omega)

theorem alphaIndex_flat (a α : Nat) : alphaIndex a a α = 0 := if_pos rfl

theorem alphaIndex_of_lt {a0 a1 : Nat} (ha : a1 < a0) (α : Nat) :
    alphaIndex a0 a1 α = [1, 7, 6, 5, 4, 3, 2, 0].getD (alphaBucket a0 a1 α) 0 :=
  if_neg ha.ne'

/-- Settles O45: the extremes lie in buckets 0 and 7, and flat alpha gets index 0 alone. -/
theorem alphaEncoderProperties : Obligations.AlphaEncoderProperties := by
  refine ⟨fun a0 a1 ha _ => ⟨?_, ?_⟩, fun a0 a1 α α' _ _ _ h hα' => alphaBucket_mono h hα',
    fun a0 a1 α q ha _ _ hα => alphaBucket_eq_iff ha hα, fun a α => ?_⟩
  · rw [alphaIndex_of_lt ha, alphaBucket_min ha]
    rfl
  · rw [alphaIndex_of_lt ha, alphaBucket_max ha]
    rfl
  · rw [alphaIndex_flat]
    decide

/-! ### The endpoints are samples and bound all samples (R132) -/

theorem mem_alphaSamples {s : State} {α : Byte} : α ∈ s.alphaSamples ↔ ∃ i < 16, s.alphaOf i = α := by
  simp [State.alphaSamples, Config.sampleCount]

theorem toNat_le_alphaMax {as : List Byte} {α : Byte} (h : α ∈ as) : α.toNat ≤ alphaMax as :=
  List.le_max?_getD_of_mem (List.mem_map_of_mem h)

theorem alphaMin_le_toNat {as : List Byte} {α : Byte} (h : α ∈ as) : alphaMin as ≤ α.toNat :=
  List.min?_getD_le_of_mem (List.mem_map_of_mem h)

theorem exists_toNat_eq_alphaMax {as : List Byte} (h : as ≠ []) : ∃ α ∈ as, α.toNat = alphaMax as := by
  have hne : as.map (·.toNat) ≠ [] := mt List.map_eq_nil_iff.1 h
  obtain ⟨M, hM⟩ := Option.isSome_iff_exists.1 (List.isSome_max?_iff.2 hne)
  obtain ⟨α, hα, rfl⟩ := List.mem_map.1 (List.max?_mem hM)
  exact ⟨α, hα, by rw [alphaMax, hM, Option.getD_some]⟩

theorem exists_toNat_eq_alphaMin {as : List Byte} (h : as ≠ []) : ∃ α ∈ as, α.toNat = alphaMin as := by
  have hne : as.map (·.toNat) ≠ [] := mt List.map_eq_nil_iff.1 h
  obtain ⟨m, hm⟩ := Option.isSome_iff_exists.1 (List.isSome_min?_iff.2 hne)
  obtain ⟨α, hα, rfl⟩ := List.mem_map.1 (List.min?_mem hm)
  exact ⟨α, hα, by rw [alphaMin, hm, Option.getD_some]⟩

/-! ### The record of `alpha` (R71, R72, R140) -/

/-- The six bytes of a 48-bit string, the low byte last, are the string (R72). -/
theorem append_bytes48 (A : BitVec 48) :
    A.extractLsb' 40 8 ++ A.extractLsb' 32 8 ++ A.extractLsb' 24 8 ++ A.extractLsb' 16 8 ++ A.extractLsb' 8 8 ++
      A.extractLsb' 0 8 = A := by
  iterate 5 rw [BitVec.extractLsb'_append_extractLsb'_eq_extractLsb' (by rfl)]
  exact BitVec.extractLsb'_eq_self

/-- An 8-byte record leaves zero bytes behind it in `OUT` (R24). -/
theorem out_putRecord_zeroTail (s : State) {bs : List Byte} (hlen : bs.length = 8) (n : BitVec 5) {j : Nat}
    (hj : j < 16) (h8 : 8 ≤ j) : (s.putRecord (bs ++ zeroTail) n).out j = 0 := by
  rw [out_putRecord _ _ _ _ (by simpa [hlen] using hj), List.getElem_append_right (hlen.trans_le h8)]
  exact List.getElem_replicate _

/-- What `alpha` leaves in `OUT` and `OLEN`: the extremes of the samples, their index string, and zeros. -/
theorem exec_alpha_record {s : State} (h : s.alphaWritten = true) :
    ∃ t, exec .alpha s = .next t ∧ Status.olen t.status = 8 ∧ (∀ j < 16, 8 ≤ j → t.out j = 0) ∧
      (t.out 0).toNat = alphaMax s.alphaSamples ∧ (t.out 1).toNat = alphaMin s.alphaSamples ∧
      t.out 7 ++ t.out 6 ++ t.out 5 ++ t.out 4 ++ t.out 3 ++ t.out 2 = alphaString s.alphaSamples := by
  have hbyte : ∀ j (hj : j < 8), (s.putRecord (alphaBlock s.alphaSamples ++ zeroTail) 8).out j =
      (alphaBlock s.alphaSamples)[j] := fun j hj => by
    rw [out_putRecord _ _ _ _ (by simp; omega), List.getElem_append_left hj]
  have hmax := alphaMax_lt s.alphaSamples
  have hmin := (alphaMin_le_alphaMax s.alphaSamples).trans_lt hmax
  refine ⟨_, exec_alpha s h, olen_setOlen _ _, fun j => out_putRecord_zeroTail s rfl 8, ?_, ?_, ?_⟩
  · rw [hbyte 0 (by decide)]
    exact Nat.mod_eq_of_lt hmax
  · rw [hbyte 1 (by decide)]
    exact Nat.mod_eq_of_lt hmin
  · rw [hbyte 2 (by decide), hbyte 3 (by decide), hbyte 4 (by decide), hbyte 5 (by decide), hbyte 6 (by decide),
      hbyte 7 (by decide)]
    exact append_bytes48 _

/-- Settles O44: the record's first two bytes are the extremes, and each field of its index string is the remapped
bucket, which is the floor of the scaled distance. -/
theorem alphaBlockBytes : Obligations.AlphaBlockBytes := by
  intro s hw
  obtain ⟨t, ht, holen, htail, hmax, hmin, hstring⟩ := exec_alpha_record hw
  have hmem : ∀ i < 16, s.alphaOf i ∈ s.alphaSamples := fun i hi => mem_alphaSamples.2 ⟨i, hi, rfl⟩
  have hne : s.alphaSamples ≠ [] := List.ne_nil_of_mem (hmem 0 (by decide))
  have hbounds : ∀ i < 16, s.alphaOf i ≤ t.out 0 ∧ t.out 1 ≤ s.alphaOf i := fun i hi => by
    rw [BitVec.le_def, BitVec.le_def, hmax, hmin]
    exact ⟨toNat_le_alphaMax (hmem i hi), alphaMin_le_toNat (hmem i hi)⟩
  refine ⟨t, _, ht, rfl, holen, htail, hbounds, ?_, ?_, fun hflat => ?_, ?_⟩
  · obtain ⟨α, hα, hα0⟩ := exists_toNat_eq_alphaMax hne
    rw [← hmax, BitVec.toNat_inj] at hα0
    exact mem_alphaSamples.1 (hα0 ▸ hα)
  · obtain ⟨α, hα, hα1⟩ := exists_toNat_eq_alphaMin hne
    rw [← hmin, BitVec.toNat_inj] at hα1
    exact mem_alphaSamples.1 (hα1 ▸ hα)
  · rw [hstring]
    exact alphaString_flat _ (by rw [← hmax, ← hmin, hflat])
  · rintro i _ _ hi hdiff rfl rfl
    obtain ⟨hle, hge⟩ := hbounds i hi
    have hlt : (t.out 1).toNat < (t.out 0).toNat :=
      lt_of_le_of_ne (hge.trans hle) (mt BitVec.toNat_inj.1 hdiff)
    have hlen : s.alphaSamples.length = 16 := by simp [State.alphaSamples, Config.sampleCount]
    refine ⟨floor_scaledDistance _ _, alphaQuotient_le_seven (Nat.sub_le_sub_right hle _), ?_⟩
    rw [hstring, alphaString_field _ i (by omega) (by omega), ← hmax, ← hmin, alphaIndex_of_lt hlt,
      floor_scaledDistance, Int.toNat_natCast, ← alphaBucket_eq_div hle]
    simp [State.alphaSamples]

end Sys2Proof.Machine

namespace Sys2Proof.Machine

/-! ### What `OUT` holds after a record of two parts (R24, R74) -/

section RecordParts
variable (s s' : State) {bs xs ys : List Byte} (n : BitVec 5) {j : Nat}

theorem out_putRecord_append_left (h : j < xs.length) : (s.putRecord (xs ++ ys) n).out j = xs[j] := by
  rw [out_putRecord _ _ _ _ (by rw [List.length_append]; omega), List.getElem_append_left h]

theorem out_putRecord_append_right (h : j < ys.length) :
    (s.putRecord (xs ++ ys) n).out (xs.length + j) = ys[j] := by
  rw [out_putRecord _ _ _ _ (by rw [List.length_append]; omega), List.getElem_append_right (Nat.le_add_right _ _)]
  simp only [Nat.add_sub_cancel_left]

/-- The state a record is stored in does not reach `OUT`. -/
theorem out_putRecord_congr (h : j < bs.length) : (s.putRecord bs n).out j = (s'.putRecord bs n).out j := by
  rw [out_putRecord _ _ _ _ h, out_putRecord _ _ _ _ h]

end RecordParts

/-! ### The samples depend on the `WIN` bytes a command reads (R23, R155) -/

section Agreement
variable {s s' : State}

/-- Where a byte has been written, the free values do not reach it. -/
theorem byteAt_eq_of_written {a : Nat} (hw : s.written a = true) (h : s.mem.byte? a = s'.mem.byte? a) :
    s.byteAt a = s'.byteAt a := by
  obtain ⟨b, hb⟩ := Option.isSome_iff_exists.1 hw
  rw [State.byteAt, State.byteAt, ← h, hb, Option.getD_some, Option.getD_some]

/-- A command that completes from `s` reads only written bytes, so it reads the same bytes in every state that agrees
with `s` on them. -/
theorem byteAt_eq_of_exec {i : Instr} {t : State} (ht : exec i s = .next t)
    (h : ∀ a, readsWin i a = true → s.mem.byte? a = s'.mem.byte? a) :
    ∀ a, readsWin i a = true → s.byteAt a = s'.byteAt a := fun a ha =>
  byteAt_eq_of_written ((ready_iff i s).1 ((exec_eq_next_iff_ready i s).1 ⟨t, ht⟩) a ha) (h a ha)

theorem rgbSamples_eq_of_byteAt (h : ∀ a, readsWin .bc1 a = true → s.byteAt a = s'.byteAt a) :
    s.rgbSamples = s'.rgbSamples := by
  refine List.map_congr_left fun i hi => ?_
  have hi16 : i < 16 := List.mem_range.1 hi
  have hchannel : ∀ k < 3, s.byteAt (4 * i + k) = s'.byteAt (4 * i + k) := fun k hk =>
    h _ (by simp only [readsWin, Bool.and_eq_true, decide_eq_true_eq]; omega)
  rw [State.rgb, State.rgb, Vec3.mk.injEq]
  exact ⟨hchannel 0 (by decide), hchannel 1 (by decide), hchannel 2 (by decide)⟩

theorem alphaSamples_eq_of_byteAt (h : ∀ a, readsWin .alpha a = true → s.byteAt a = s'.byteAt a) :
    s.alphaSamples = s'.alphaSamples := by
  refine List.map_congr_left fun i hi => h _ ?_
  have hi16 : i < 16 := List.mem_range.1 hi
  simp only [readsWin, Bool.and_eq_true, decide_eq_true_eq]
  omega

end Agreement

/-- `bc3` reads what `bc1` reads. -/
theorem readsWin_bc3_of_bc1 {a : Nat} (h : readsWin .bc1 a = true) : readsWin .bc3 a = true :=
  (Bool.and_eq_true_iff.1 h).1

/-- `bc3` reads what `alpha` reads. -/
theorem readsWin_bc3_of_alpha {a : Nat} (h : readsWin .alpha a = true) : readsWin .bc3 a = true :=
  (Bool.and_eq_true_iff.1 h).1

/-- Settles O29: the command completes, so the samples it reads are written and equal in both states, and the record
is a function of those samples. -/
theorem blockCommandsDependOnlyOnWhatTheyRead : Obligations.BlockCommandsDependOnlyOnWhatTheyRead := by
  intro i s s' t t' hi hagree ht ht' j hj
  have hbyte := byteAt_eq_of_exec ht hagree
  rcases hi with rfl | rfl | rfl <;>
    obtain ⟨-, rfl⟩ := whenWritten_eq_next.1 ht <;> obtain ⟨-, rfl⟩ := whenWritten_eq_next.1 ht'
  · rw [alphaSamples_eq_of_byteAt hbyte]
    exact out_putRecord_congr s s' 8 hj
  · rw [rgbSamples_eq_of_byteAt hbyte]
    exact out_putRecord_congr s s' 8 hj
  · rw [alphaSamples_eq_of_byteAt fun a ha => hbyte a (readsWin_bc3_of_alpha ha),
      rgbSamples_eq_of_byteAt fun a ha => hbyte a (readsWin_bc3_of_bc1 ha)]
    exact out_putRecord_congr s s' 16 hj

/-- Settles O47: the `bc3` record is the alpha block followed by the color block, which the other two commands put
before eight zero bytes. -/
theorem bc3IsAlphaThenBc1 : Obligations.Bc3IsAlphaThenBc1 := by
  intro s hrgb halpha
  refine ⟨_, _, _, exec_bc3 s hrgb halpha, exec_alpha s halpha, exec_bc1 s hrgb, fun j hj => ⟨?_, ?_⟩,
    olen_setOlen _ _, err_setOlen _ _, ecode_setOlen _ _, putRecord_res _ _ _, putRecord_arg _ _ _⟩
  · rw [← alphaBlock_length s.alphaSamples] at hj
    rw [out_putRecord_append_left _ _ hj, out_putRecord_append_left _ _ hj]
  · rw [← colorBlock_length s.rgbSamples] at hj
    rw [out_putRecord_append_left _ _ hj, ← alphaBlock_length s.alphaSamples, out_putRecord_append_right _ _ hj]

/-- Settles O26: a word that is not 0 and whose low four bits are 0 is at least 16, where the decoder rejects it. -/
theorem nopChangesNothing : Obligations.NopChangesNothing := by
  refine ⟨exec_nop, fun s v hop hne => ?_⟩
  have hpos : v.toNat ≠ 0 := fun h0 => hne (BitVec.eq_of_toNat_eq h0)
  have h16 : ¬ v.toNat < 16 := by omega
  rw [execute_illegal s (by omega), if_neg h16, State.raise]

end Sys2Proof.Machine

namespace Sys2Proof.Machine

/-! ### Erroneous accesses (R171, R173 to R175) -/

/-- An error recorded while `ERR` is 1 changes nothing (R173). -/
theorem raise_of_err {s : State} (h : Status.err s.status = true) (e : ErrorCode) : s.raise e = s := by
  rw [State.raise, status_raise_of_err h]

/-- A 4-byte write to `CMD` of a word that is no command records that word's error (R62, R63). -/
theorem perform_st_illegal_word {v : Word} (s : State) (h : 8 ≤ v.toNat) :
    perform (.st .word cmdAddr v) s = .next (s.raise (if v.toNat < 16 then .illegalOp else .rsvdBits)) :=
  (memWrite_cmd s v).trans (execute_illegal s h)

/-- An erroneous read records its error and returns 0. -/
theorem perform_ld_of_error? {w : Width} {a : BitVec 8} {e : ErrorCode} (s : State)
    (h : (PortOp.ld w a).error? = some e) : perform (.ld w a) s = .next ((s.raise e).give 0) := by
  cases hl : legalRead a w with
  | false =>
    obtain rfl : .badAccess = e := by simpa [PortOp.error?, hl] using h
    exact perform_ld_rejected s hl
  | true => simp [PortOp.error?, hl] at h

/-- An erroneous write records its error: the port rejects it, or it carries a word that is no command. -/
theorem perform_st_of_error? {w : Width} {a : BitVec 8} {v : Word} {e : ErrorCode} (s : State)
    (h : (PortOp.st w a v).error? = some e) : perform (.st w a v) s = .next (s.raise e) := by
  cases hl : legalWrite a w with
  | false =>
    obtain rfl : .badAccess = e := by simpa [PortOp.error?, hl] using h
    exact perform_st_rejected s v hl
  | true =>
    by_cases hcmd : a = cmdAddr
    · subst hcmd
      obtain ⟨rfl, -⟩ := legalWrite_register hl (by decide)
      by_cases h8 : 8 ≤ v.toNat
      · obtain rfl := Option.some.inj ((error?_illegal_word h8).symm.trans h)
        exact perform_st_illegal_word s h8
      · simp [PortOp.error?, hl, h8, show ¬ 16 ≤ v.toNat by omega] at h
    · simp [PortOp.error?, hl, hcmd] at h

/-- Settles O13: an erroneous access is `raise` of its error, and a read gives 0 besides. -/
theorem errorsArePrecise : Obligations.ErrorsArePrecise := by
  intro s op herr
  obtain ⟨e, he⟩ := Option.isSome_iff_exists.1 herr
  cases op with
  | ld w a =>
    exact ⟨_, perform_ld_of_error? s he, rfl, rfl, rfl, highBits_raise s.status e, err_raise s.status e,
      fun _ => rfl, fun ⟨_, _, _, hst⟩ => (nomatch hst)⟩
  | st w a v =>
    exact ⟨_, perform_st_of_error? s he, rfl, rfl, rfl, highBits_raise s.status e, err_raise s.status e,
      fun ⟨_, _, hld⟩ => (nomatch hld), fun _ => rfl⟩
  | reset => nomatch he

/-- Settles O14: each access is `raise` of one error, and from `ERR` = 0 its code is the one recorded. -/
theorem errorPriority : Obligations.ErrorPriority := by
  refine fun s a w v h0 => ⟨fun hread => ?_, fun hwrite => ?_, fun h16 => ?_, fun h8 h16 => ?_⟩
  · exact ⟨_, perform_ld_rejected s hread, err_raise _ _, ecode_raise_of_no_err h0 .badAccess⟩
  · exact ⟨_, perform_st_rejected s v hwrite, err_raise _ _, ecode_raise_of_no_err h0 .badAccess⟩
  · have hrun := perform_st_illegal_word s (show 8 ≤ v.toNat by omega)
    rw [if_neg (by omega)] at hrun
    exact ⟨_, hrun, err_raise _ _, ecode_raise_of_no_err h0 .rsvdBits⟩
  · have hrun := perform_st_illegal_word s h8
    rw [if_pos h16] at hrun
    exact ⟨_, hrun, err_raise _ _, ecode_raise_of_no_err h0 .illegalOp⟩

/-- Settles O24: the command is ready, so it completes, and of what a command can do only the reserved range records an
error. -/
theorem legalCommandsRaiseNoError : Obligations.LegalCommandsRaiseNoError := by
  intro i s hlegal hwritten
  obtain ⟨t, ht⟩ := exec_completes i s ((ready_iff i s).2 hwritten)
  refine ⟨t, ht, ?_⟩
  rcases exec_cases ht with ⟨-, rfl⟩ | ⟨v, -, rfl⟩ | ⟨-, rfl⟩ | ⟨-, rfl⟩ | ⟨-, rfl⟩ | ⟨op, hop, -⟩
  · exact ⟨rfl, rfl⟩
  · exact ⟨rfl, rfl⟩
  · exact ⟨err_setOlen _ _, ecode_setOlen _ _⟩
  · exact ⟨err_setOlen _ _, ecode_setOlen _ _⟩
  · exact ⟨err_setOlen _ _, ecode_setOlen _ _⟩
  · exact absurd hop (hlegal op)

/-- Settles O12: `raise` touches `STATUS` alone, there only bits 3:0, and none of them once `ERR` is 1. -/
theorem raiseKeepsTheFirstError : Obligations.RaiseKeepsTheFirstError := by
  intro s e
  exact ⟨fun h0 => ⟨err_raise s.status e, ecode_raise_of_no_err h0 e⟩, fun h1 => raise_of_err h1 e, rfl, rfl, rfl,
    olen_raise s.status e, highBits_raise s.status e⟩

end Sys2Proof.Machine

namespace Sys2Proof

/-! ### The encoder undoes the decoder, and the decoder the encoder (R60, R61, R75) -/

/-- The word of an instruction has `RSV` = 0 and `OP` = its opcode, whichever instruction it is (R60, R61). -/
theorem encode_layout (i : Instr) : Laws.EncodeLayout.Statement i := by
  cases i with
  | nop => exact Laws.EncodeLayout.nop
  | pack => exact Laws.EncodeLayout.pack
  | unpack => exact Laws.EncodeLayout.unpack
  | fit => exact Laws.EncodeLayout.fit
  | cindex => exact Laws.EncodeLayout.cindex
  | alpha => exact Laws.EncodeLayout.alpha
  | bc1 => exact Laws.EncodeLayout.bc1
  | bc3 => exact Laws.EncodeLayout.bc3
  | reserved op => exact Laws.EncodeLayout.reserved op

theorem encode_toNat_lt (i : Instr) : (encode i).toNat < 16 :=
  (rsvField_eq_zero_iff _).1 (encode_layout i).1

/-- A well-formed instruction is the one of its opcode (R61, R63). -/
theorem decodeOp_opcode {i : Instr} (h : i.wellFormed = true) : decodeOp i.opcode = i := by
  cases i with
  | reserved op => exact decodeOp_reserved (of_decide_eq_true h)
  | nop | pack | unpack | fit | cindex | alpha | bc1 | bc3 => rfl

theorem wellFormed_decodeOp : ∀ op : BitVec 4, (decodeOp op).wellFormed = true := by decide

theorem opcode_decodeOp : ∀ op : BitVec 4, (decodeOp op).opcode = op := by decide

theorem decode_encode {i : Instr} (h : i.wellFormed = true) : decode (encode i) = .ok i :=
  decode_eq_ok_iff.2 ⟨encode_toNat_lt i, (encode_layout i).2.symm ▸ decodeOp_opcode h⟩

/-- Both fields of the word are those of the encoding: `RSV` is 0 in both, and the decoder loses nothing of `OP`. -/
theorem encode_of_decode {w : Word} {i : Instr} (h : decode w = .ok i) : encode i = w := by
  obtain ⟨hw, rfl⟩ := decode_eq_ok_iff.1 h
  have hop : (opField (encode (decodeOp (opField w)))).toNat = (opField w).toNat := by
    rw [(encode_layout _).2, opcode_decodeOp]
  have henc := encode_toNat_lt (decodeOp (opField w))
  rw [opField_toNat, opField_toNat, Nat.mod_eq_of_lt henc, Nat.mod_eq_of_lt hw] at hop
  exact BitVec.eq_of_toNat_eq hop

/-- The bytes of a word put together from four bytes are those bytes (R46). -/
theorem wordBytes_of_append (b0 b1 b2 b3 : Byte) : wordBytes (b3 ++ b2 ++ b1 ++ b0) = [b0, b1, b2, b3] := by
  rw [wordBytes, Machine.extract_append_byte0, Machine.extract_append_byte1, Machine.extract_append_byte2,
    Machine.extract_append_byte3]

/-- A byte string that decodes is the four bytes of a word that decodes (R75). -/
theorem decodeBytes_eq_ok {bs : List Byte} {i : Instr} (h : decodeBytes bs = .ok i) :
    ∃ w, wordBytes w = bs ∧ decode w = .ok i := by
  unfold decodeBytes at h
  split at h
  · exact ⟨_, wordBytes_of_append _ _ _ _, h⟩
  · nomatch h

/-- Settles O21: on words by the two fields, and on bytes because a word and its four bytes decode alike. -/
theorem decodeEncodeAgree : Obligations.DecodeEncodeAgree := by
  refine ⟨fun i hi => ⟨decode_encode hi, ?_⟩, fun w i h => ⟨?_, encode_of_decode h⟩, fun bs i h => ?_⟩
  · rw [encodeBytes, decodeBytes_wordBytes, decode_encode hi]
  · obtain ⟨-, rfl⟩ := decode_eq_ok_iff.1 h
    exact wellFormed_decodeOp _
  · obtain ⟨w, rfl, hw⟩ := decodeBytes_eq_ok h
    rw [encodeBytes, encode_of_decode hw]

end Sys2Proof

namespace Sys2Proof.Machine

/-! ### What the commands leave unchanged (R24, R26) -/

/-- `pack`, `unpack`, `fit` and `cindex` write `RES` and nothing else (R26). -/
theorem exec_register_command {i : Instr} {s t : State} (hi : i = .pack ∨ i = .unpack ∨ i = .fit ∨ i = .cindex)
    (h : exec i s = .next t) : ∃ v, t = s.putRes v := by
  rcases exec_cases h with ⟨rfl, -⟩ | ⟨v, -, ht⟩ | ⟨rfl, -⟩ | ⟨rfl, -⟩ | ⟨rfl, -⟩ | ⟨op, rfl, -⟩
  case inr.inl => exact ⟨v, ht⟩
  all_goals simp at hi

/-- `alpha`, `bc1` and `bc3` store a record: one of 8 bytes with its zero bytes behind it, or one of 16 (R24, R30). -/
theorem exec_block_command {i : Instr} {s t : State} (hi : i = .alpha ∨ i = .bc1 ∨ i = .bc3)
    (h : exec i s = .next t) :
    ∃ bs n, t = s.putRecord bs n ∧ bs.length = 16 ∧
      (n = 8 ∧ (∃ xs, xs.length = 8 ∧ bs = xs ++ zeroTail) ∨ n = 16) := by
  rcases hi with rfl | rfl | rfl <;> obtain ⟨-, rfl⟩ := whenWritten_eq_next.1 h
  · exact ⟨_, 8, rfl, rfl, .inl ⟨rfl, _, rfl, rfl⟩⟩
  · exact ⟨_, 8, rfl, rfl, .inl ⟨rfl, _, rfl, rfl⟩⟩
  · exact ⟨_, 16, rfl, rfl, .inr rfl⟩

/-- Equal contents at an address read alike and are written alike, under one reset of one copy. -/
theorem byteAt_written_congr {s t : State} (hr : t.resets = s.resets) (hc : t.copy = s.copy) {a : Nat}
    (h : t.mem.byte? a = s.mem.byte? a) : t.byteAt a = s.byteAt a ∧ t.written a = s.written a := by
  simp only [State.byteAt, State.written, h, hr, hc, and_self]

/-- Settles O27: the command is `putRes` of some word. -/
theorem registerCommandsFrame : Obligations.RegisterCommandsFrame := by
  intro i s t hi h
  obtain ⟨v, rfl⟩ := exec_register_command hi h
  exact ⟨rfl, rfl, fun a => ⟨rfl, rfl⟩, rfl, rfl, rfl, rfl⟩

/-- Settles O28: the command is `putRecord` of 16 bytes. -/
theorem blockCommandsFrame : Obligations.BlockCommandsFrame := by
  intro i s t hi h
  obtain ⟨bs, n, rfl, hlen, -⟩ := exec_block_command hi h
  exact ⟨rfl, rfl, otherBits_setOlen s.status n,
    fun a ha => byteAt_written_congr (putRecord_resets ..) (putRecord_copy ..)
      (byte?_putRecord_outside s bs n a (hlen.symm ▸ ha)),
    fun j hj => written_putRecord s bs n j (hlen.symm ▸ hj), rfl, rfl, rfl, rfl⟩

/-! ### Everything an access can do to memory and `OLEN`, said once -/

theorem bytes_pos (w : Width) : 0 < w.bytes := by cases w <;> decide

theorem bytes_le_four (w : Width) : w.bytes ≤ 4 := by cases w <;> decide

/-- The ways an access can take the port's memory and `OLEN` from those of `s` to those of `t`. -/
inductive MemoryChange (s t : State) : Prop where
  /-- It leaves both as they are. -/
  | kept (hm : t.mem = s.mem) (hr : t.resets = s.resets) (hc : t.copy = s.copy)
    (ho : Status.olen t.status = Status.olen s.status)
  /-- It is a write to `WIN` (R45). -/
  | window (a n : Nat) (v : Word) (h : a + n ≤ outBase) (hn : n ≤ 4) (ht : t = s.writeLE a n v)
  /-- It is reset (R36, R190). -/
  | cleared (hm : t.mem = []) (ho : Status.olen t.status = 0)
  /-- It is a command that stores a record (R24, R30). -/
  | recorded (i : Instr) (hi : i = .alpha ∨ i = .bc1 ∨ i = .bc3) (h : exec i s = .next t)

theorem exec_memoryChange {i : Instr} {s t : State} (h : exec i s = .next t) : MemoryChange s t := by
  rcases exec_cases h with ⟨-, rfl⟩ | ⟨v, -, rfl⟩ | ⟨rfl, -⟩ | ⟨rfl, -⟩ | ⟨rfl, -⟩ | ⟨op, -, rfl⟩
  · exact .kept rfl rfl rfl rfl
  · exact .kept rfl rfl rfl rfl
  · exact .recorded _ (.inl rfl) h
  · exact .recorded _ (.inr (.inl rfl)) h
  · exact .recorded _ (.inr (.inr rfl)) h
  · exact .kept rfl rfl rfl (olen_raise _ _)

theorem memWrite_memoryChange {a : BitVec 8} {w : Width} {v : Word} {s t : State} (h : memWrite a w v s = .next t) :
    MemoryChange s t := by
  rcases memWrite_cases h with ⟨-, rfl⟩ | ⟨ha, rfl⟩ | ⟨-, h⟩ | ⟨-, rfl⟩ | ⟨-, rfl⟩ | ⟨-, rfl⟩
  · exact .kept rfl rfl rfl (olen_raise _ _)
  · exact .window _ _ v ha (bytes_le_four w) rfl
  · rcases execute_cases h with ⟨-, rfl⟩ | ⟨i, -, h⟩
    · exact .kept rfl rfl rfl (olen_raise _ _)
    · exact exec_memoryChange h
  · exact .kept rfl rfl rfl rfl
  · exact .kept rfl rfl rfl (olen_clear _)
  · exact .kept rfl rfl rfl rfl

theorem memRead_memoryChange {a : BitVec 8} {w : Width} {s t : State} (h : memRead a w s = .next t) :
    MemoryChange s t := by
  rcases memRead_cases h with ⟨-, rfl⟩ | ⟨-, v, rfl⟩
  · exact .kept rfl rfl rfl (olen_raise _ _)
  · exact .kept rfl rfl rfl rfl

/-- A step changes memory and `OLEN` as its access does, from the state that has dropped it. -/
theorem step_memoryChange {s t : State} (h : step s = .next t) :
    ∃ pending, MemoryChange { s with pending := pending } t := by
  rcases step_cases h with ⟨-, rfl⟩ | ⟨op, rest, -, ⟨w, a, -, h⟩ | ⟨w, a, v, -, h⟩ | ⟨-, rfl⟩⟩
  · exact ⟨t.pending, .kept rfl rfl rfl rfl⟩
  · exact ⟨rest, memRead_memoryChange h⟩
  · exact ⟨rest, memWrite_memoryChange h⟩
  · exact ⟨rest, .cleared rfl olen_zero⟩

/-! ### The canonical form of memory, and the fields of `STATUS` -/

theorem MemoryChange.wf {s t : State} (h : MemoryChange s t) (hwf : s.mem.wf = true) : t.mem.wf = true := by
  cases h with
  | kept hm _ _ _ => rwa [hm]
  | window a n v ha hn ht =>
    subst ht
    refine wf_storeAll _ _ _ ?_ hwf
    rw [List.length_take, wordBytes_length]
    simp only [outBase, memEnd] at ha ⊢
    omega
  | cleared hm _ =>
    rw [hm]
    rfl
  | recorded i hi h =>
    obtain ⟨bs, n, rfl, hlen, -⟩ := exec_block_command hi h
    exact wf_storeAll _ _ _ (by rw [hlen]; decide) hwf

theorem statusLegal_zero : StatusLegal 0 := ⟨by decide, by decide, by decide, by decide⟩

theorem statusLegal_raise {st : Word} (h : StatusLegal st) (e : ErrorCode) : StatusLegal (Status.raise st e) := by
  cases herr : Status.err st with
  | true => rwa [status_raise_of_err herr]
  | false =>
    obtain ⟨hrsv, hcode, -, holen⟩ := h
    refine ⟨by rwa [reservedBits_raise], ecode_raise_le_three hcode e, ?_, by rwa [olen_raise]⟩
    rw [ecode_raise_of_no_err herr]
    cases e <;> simp [ErrorCode.code]

/-- No access leaves `STATUS` with an illegal value (R27, R29 to R31). -/
theorem StatusChange.statusLegal {op : PortOp} {st st' : Word} (h : StatusChange op st st') (hl : StatusLegal st) :
    StatusLegal st' := by
  cases h with
  | kept => exact hl
  | raised e _ => exact statusLegal_raise hl e
  | cleared v _ _ =>
    obtain ⟨hrsv, -, -, holen⟩ := hl
    exact ⟨by rwa [reservedBits_clear], by simp, by simp, by rwa [olen_clear]⟩
  | reset _ => exact statusLegal_zero
  | recorded n hn =>
    obtain ⟨hrsv, hcode, herr, -⟩ := hl
    exact ⟨by rwa [reservedBits_setOlen], by rwa [ecode_setOlen], by rwa [err_setOlen, ecode_setOlen],
      by rw [olen_setOlen]; exact .inr hn⟩

theorem step_statusLegal {s t : State} (h : step s = .next t) (hl : StatusLegal s.status) : StatusLegal t.status := by
  rcases step_statusChange h with hk | ⟨op, rest, -, hc⟩
  · rwa [hk]
  · exact hc.statusLegal hl

/-! ### `OUT` against `OLEN` (R24, R38) -/

/-- Outside reset and the commands that store a record, no byte of `OUT` and no bit of `OLEN` changes. -/
def SameOut (s t : State) : Prop :=
  Status.olen t.status = Status.olen s.status ∧
    ∀ j < 16, t.out j = s.out j ∧ t.written (outBase + j) = s.written (outBase + j)

/-- An access leaves `OUT` and `OLEN` as they are, resets both, or stores a record. -/
theorem MemoryChange.sameOut_or {s t : State} (h : MemoryChange s t) :
    SameOut s t ∨ (Status.olen t.status = 0 ∧ ∀ a, t.written a = false) ∨
      ∃ i, (i = .alpha ∨ i = .bc1 ∨ i = .bc3) ∧ exec i s = .next t := by
  cases h with
  | kept hm hr hc ho => exact .inl ⟨ho, fun j _ => byteAt_written_congr hr hc (by rw [hm])⟩
  | window a n v ha hn ht =>
    subst ht
    exact .inl ⟨rfl, fun j _ => byteAt_written_congr (writeLE_resets ..) (writeLE_copy ..)
      (byte?_writeLE_outside s a n (outBase + j) v hn (by omega))⟩
  | cleared hm ho => exact .inr (.inl ⟨ho, fun a => (written_eq_false_iff t a).2 (by rw [hm]; rfl)⟩)
  | recorded i hi h => exact .inr (.inr ⟨i, hi, h⟩)

theorem outMatchesOlen_of_sameOut {s t : State} (h : SameOut s t) (hs : OutMatchesOlen s) : OutMatchesOlen t := by
  obtain ⟨ho, hout⟩ := h
  obtain ⟨hnone, hall, htail⟩ := hs
  refine ⟨fun h0 j hj => ?_, fun h0 j hj => ?_, fun h8 j hj hj8 => ?_⟩
  · exact (hout j hj).2.trans (hnone (ho ▸ h0) j hj)
  · exact (hout j hj).2.trans (hall (ho ▸ h0) j hj)
  · exact (hout j hj).1.trans (htail (ho ▸ h8) j hj hj8)

theorem outMatchesOlen_of_unwritten {t : State} (ho : Status.olen t.status = 0) (hw : ∀ a, t.written a = false) :
    OutMatchesOlen t :=
  ⟨fun _ j _ => hw _, fun h0 => absurd ho h0, fun h8 => absurd (ho.symm.trans h8) (by decide)⟩

/-- A record fills `OUT`, and behind an 8-byte record it is zero. -/
theorem outMatchesOlen_of_record {i : Instr} {s t : State} (hi : i = .alpha ∨ i = .bc1 ∨ i = .bc3)
    (h : exec i s = .next t) : OutMatchesOlen t := by
  obtain ⟨bs, n, rfl, hlen, hn⟩ := exec_block_command hi h
  have holen : Status.olen (s.putRecord bs n).status = n := olen_setOlen _ _
  refine ⟨fun h0 => ?_, fun _ j hj => written_putRecord s bs n j (hlen.symm ▸ hj), fun h8 j hj hj8 => ?_⟩
  · rw [holen] at h0
    rcases hn with ⟨rfl, -⟩ | rfl <;> exact absurd h0 (by decide)
  · rw [holen] at h8
    rcases hn with ⟨-, xs, hxs, rfl⟩ | rfl
    · exact out_putRecord_zeroTail s hxs n hj hj8
    · exact absurd h8 (by decide)

theorem step_outMatchesOlen {s t : State} (h : step s = .next t) (hs : OutMatchesOlen s) : OutMatchesOlen t := by
  obtain ⟨pending, hchange⟩ := step_memoryChange h
  rcases hchange.sameOut_or with hsame | ⟨ho, hw⟩ | ⟨i, hi, hx⟩
  · exact outMatchesOlen_of_sameOut hsame hs
  · exact outMatchesOlen_of_unwritten ho hw
  · exact outMatchesOlen_of_record hi hx

/-- Settles O49: the three parts of `Legal`, each kept by every way memory, `OLEN` and `STATUS` can change. -/
theorem stepKeepsLegal : Obligations.StepKeepsLegal := by
  intro s t ⟨hmem, hstatus, hout⟩ h
  obtain ⟨pending, hchange⟩ := step_memoryChange h
  exact ⟨hchange.wf hmem, step_statusLegal h hstatus, step_outMatchesOlen h hout⟩

/-! ### The record in `OUT` is one the encoder can emit (R74, R120, R132, R135) -/

section SameBytes
variable {s t : State} {k : Nat} (h : ∀ j < 16, t.out j = s.out j) (hk : k + 8 ≤ 16)
include h hk

theorem alphaRecordAt_congr (hs : AlphaRecordAt s k) : AlphaRecordAt t k := by
  obtain ⟨hle, hflat⟩ := hs
  rw [← h k (by omega), ← h (k + 1) (by omega)] at hle hflat
  exact ⟨hle, fun heq j hj h2 => (h _ (by omega)).trans (hflat heq j hj h2)⟩

theorem colorRecordAt_congr (hs : ColorRecordAt s k) : ColorRecordAt t k := by
  have hhalf : ∀ m < 15, t.outHalf m = s.outHalf m := fun m hm => by
    rw [State.outHalf, State.outHalf, h _ (by omega), h _ (by omega)]
  obtain ⟨hle, hsolid⟩ := hs
  rw [← hhalf (k + 2) (by omega), ← hhalf k (by omega)] at hle hsolid
  exact ⟨hle, fun heq j hj h4 => (h _ (by omega)).trans (hsolid heq j hj h4)⟩

end SameBytes

theorem recordLegal_of_sameOut {s t : State} (h : SameOut s t) (hs : RecordLegal s) : RecordLegal t := by
  obtain ⟨ho, hout⟩ := h
  have hbyte : ∀ j < 16, t.out j = s.out j := fun j hj => (hout j hj).1
  obtain ⟨h8, h16⟩ := hs
  rw [← ho] at h8 h16
  exact ⟨fun ho8 => (h8 ho8).imp (alphaRecordAt_congr hbyte (by decide)) (colorRecordAt_congr hbyte (by decide)),
    fun ho16 => (h16 ho16).imp (alphaRecordAt_congr hbyte (by decide)) (colorRecordAt_congr hbyte (by decide))⟩

/-- An alpha block at the head of a record is legal: its endpoints are the extremes, and flat alpha has the zero index
string. -/
theorem alphaRecordAt_putRecord (s : State) (as : List Byte) (ys : List Byte) (n : BitVec 5) :
    AlphaRecordAt (s.putRecord (alphaBlock as ++ ys) n) 0 := by
  have hbyte : ∀ j (hj : j < 8), (s.putRecord (alphaBlock as ++ ys) n).out j = (alphaBlock as)[j] :=
    fun j hj => out_putRecord_append_left s n hj
  have hmax : ((s.putRecord (alphaBlock as ++ ys) n).out 0).toNat = alphaMax as := by
    rw [hbyte 0 (by decide)]
    exact Nat.mod_eq_of_lt (alphaMax_lt as)
  have hmin : ((s.putRecord (alphaBlock as ++ ys) n).out 1).toNat = alphaMin as := by
    rw [hbyte 1 (by decide)]
    exact Nat.mod_eq_of_lt ((alphaMin_le_alphaMax as).trans_lt (alphaMax_lt as))
  refine ⟨?_, fun heq j hj h2 => ?_⟩
  · rw [BitVec.le_def, Nat.zero_add, hmax, hmin]
    exact alphaMin_le_alphaMax as
  · have hflat : alphaMax as = alphaMin as := by rw [← hmax, heq, Nat.zero_add, hmin]
    rw [Nat.zero_add, hbyte j hj]
    simp only [alphaBlock, alphaString_flat as hflat]
    interval_cases j <;> rfl

/-- Every command that stores a record stores a legal one of the length it announces. -/
theorem recordLegal_of_record {i : Instr} {s t : State} (hi : i = .alpha ∨ i = .bc1 ∨ i = .bc3)
    (h : exec i s = .next t) : RecordLegal t := by
  obtain ⟨holen8, holen16, -⟩ := olenIsWrittenByBlockCommands.1 i s t h
  rcases hi with rfl | rfl | rfl
  · have ho := holen8 (.inl rfl)
    obtain ⟨-, rfl⟩ := whenWritten_eq_next.1 h
    exact ⟨fun _ => .inl (alphaRecordAt_putRecord ..), fun h16 => absurd (ho.symm.trans h16) (by decide)⟩
  · have ho := holen8 (.inr rfl)
    exact ⟨fun _ => .inr (colorBlocksAreOpaque _ s t 0 (.inl ⟨rfl, rfl⟩) h).1,
      fun h16 => absurd (ho.symm.trans h16) (by decide)⟩
  · have ho := holen16 rfl
    have hcolor := (colorBlocksAreOpaque _ s t 8 (.inr ⟨rfl, rfl⟩) h).1
    obtain ⟨-, rfl⟩ := whenWritten_eq_next.1 h
    exact ⟨fun h8 => absurd (ho.symm.trans h8) (by decide), fun _ => ⟨alphaRecordAt_putRecord .., hcolor⟩⟩

theorem recordLegal_of_olen_zero {t : State} (ho : Status.olen t.status = 0) : RecordLegal t :=
  ⟨fun h8 => absurd (ho.symm.trans h8) (by decide), fun h16 => absurd (ho.symm.trans h16) (by decide)⟩

/-- Settles O50: `OUT` and `OLEN` stay, or are reset, or take a record that one of three commands has just stored. -/
theorem stepKeepsRecordLegal : Obligations.StepKeepsRecordLegal := by
  intro s t hs h
  obtain ⟨pending, hchange⟩ := step_memoryChange h
  rcases hchange.sameOut_or with hsame | ⟨ho, -⟩ | ⟨i, hi, hx⟩
  · exact recordLegal_of_sameOut hsame hs
  · exact recordLegal_of_olen_zero ho
  · exact recordLegal_of_record hi hx

/-- Settles O48: nothing is listed and `STATUS` is 0, so `OLEN` is 0. -/
theorem resetIsLegal : Obligations.ResetIsLegal :=
  ⟨⟨reset_mem_wf, statusLegal_zero,
      outMatchesOlen_of_unwritten olen_zero fun a => (written_eq_false_iff _ a).2 (byte?_nil a)⟩,
    recordLegal_of_olen_zero olen_zero⟩

end Sys2Proof.Machine

namespace Sys2Proof.Machine

/-! ### Accesses to `WIN` (R45, R46, R51) -/

/-- An aligned read of `WIN` returns the addressed bytes, written or not. -/
theorem perform_ld_window {a : BitVec 8} {w : Width} (s : State) (hal : a.toNat % w.bytes = 0)
    (hwin : a.toNat + w.bytes ≤ 0x40) :
    perform (.ld w a) s = .next (s.give (s.readLE a.toNat w.bytes)) := by
  have hpos := bytes_pos w
  have hl : legalRead a w = true := legalRead_memory hal (by omega)
  rw [perform, memRead, if_neg (by simp [hl]), if_pos (by omega)]

/-- An aligned write to `WIN` stores its bytes. -/
theorem perform_st_window {a : BitVec 8} {w : Width} (s : State) (v : Word) (hal : a.toNat % w.bytes = 0)
    (hwin : a.toNat + w.bytes ≤ 0x40) :
    perform (.st w a v) s = .next (s.writeLE a.toNat w.bytes v) := by
  have hpos := bytes_pos w
  have hl : legalWrite a w = true := by
    simp [legalWrite, aligned, hal, show a.toNat + w.bytes - 1 ≤ 0x3F by omega]
  rw [perform, memWrite, if_neg (by simp [hl]), if_pos (by omega)]

/-- A port write of `n` bytes leaves every other byte as it was, and written or not as it was. -/
theorem byteAt_writeLE_outside (s : State) {a n a' : Nat} (v : Word) (hn : n ≤ 4) (h : a' < a ∨ a + n ≤ a') :
    (s.writeLE a n v).byteAt a' = s.byteAt a' ∧ (s.writeLE a n v).written a' = s.written a' :=
  byteAt_written_congr (writeLE_resets ..) (writeLE_copy ..) (byte?_writeLE_outside s a n a' v hn h)

/-- Bit `i` of the word assembled from `n` bytes of `v`, the first of them byte `j`. -/
theorem getLsbD_leWord_bytes (v : Word) (n j i : Nat) (hi : i < 32) :
    (leWord ((List.range n).map fun k => v.extractLsb' (8 * (j + k)) 8)).getLsbD i =
      (decide (i < 8 * n) && v.getLsbD (8 * j + i)) := by
  induction n generalizing i j with
  | zero => simp [leWord]
  | succ n ih =>
    have htail : ((List.range n).map Nat.succ).map (fun k => v.extractLsb' (8 * (j + k)) 8) =
        (List.range n).map fun k => v.extractLsb' (8 * (j + 1 + k)) 8 := by
      simp [Nat.add_comm, Nat.add_left_comm]
    rw [List.range_succ_eq_map, List.map_cons, htail, leWord, BitVec.getLsbD_or, BitVec.getLsbD_setWidth,
      BitVec.getLsbD_shiftLeft, ih (j + 1) (i - 8) (by omega), BitVec.getLsbD_extractLsb']
    by_cases h8 : i < 8
    · simp [h8, hi, show i < 8 * (n + 1) by omega]
    · have hbit : 8 * (j + 1) + (i - 8) = 8 * j + i := by omega
      simp [h8, hi, hbit, show i - 8 < 8 * n ↔ i < 8 * (n + 1) by omega]

/-- Assembling the low `n` bytes of a word gives its low bits, padded with zeros (R46; notes/assumptions/19.md). -/
theorem leWord_low_bytes (v : Word) (n : Nat) :
    leWord ((List.range n).map fun k => v.extractLsb' (8 * k) 8) = (v.setWidth (8 * n)).setWidth 32 := by
  apply BitVec.eq_of_getLsbD_eq
  intro i hi
  have hbit := getLsbD_leWord_bytes v n 0 i hi
  simpa [hi] using hbit

/-- A read after a write of the same width returns the written bytes. -/
theorem readLE_writeLE (s : State) (a : Nat) (w : Width) (v : Word) :
    (s.writeLE a w.bytes v).readLE a w.bytes = (v.setWidth (8 * w.bytes)).setWidth 32 := by
  rw [← leWord_low_bytes, State.readLE]
  refine congrArg leWord (List.map_congr_left fun k hk => ?_)
  exact byteAt_writeLE_inside s a w.bytes k v (List.mem_range.1 hk) (bytes_le_four w)

/-- A 4-byte write to `4i` sets sample `i` (R21, R47). -/
theorem sample_writeLE (s : State) (i : Nat) (v : Word) :
    (s.writeLE (4 * i) 4 v).rgb i = ⟨v.extractLsb' 0 8, v.extractLsb' 8 8, v.extractLsb' 16 8⟩ ∧
      (s.writeLE (4 * i) 4 v).alphaOf i = v.extractLsb' 24 8 := by
  have hbyte : ∀ k < 4, (s.writeLE (4 * i) 4 v).byteAt (4 * i + k) = v.extractLsb' (8 * k) 8 :=
    fun k hk => byteAt_writeLE_inside s (4 * i) 4 k v hk le_rfl
  rw [State.rgb, Vec3.mk.injEq]
  exact ⟨⟨hbyte 0 (by decide), hbyte 1 (by decide), hbyte 2 (by decide)⟩, hbyte 3 (by decide)⟩

/-- Settles O7: the write is `writeLE` and the read `readLE`, which returns what was written. -/
theorem windowWriteThenRead : Obligations.WindowWriteThenRead := by
  intro s a w v hal hwin
  refine ⟨_, _, perform_st_window s v hal hwin, perform_ld_window _ hal hwin, ?_, rfl,
    fun k hk => byteAt_writeLE_inside s _ _ k v hk (bytes_le_four w),
    fun a' ha' => byteAt_writeLE_outside s v (bytes_le_four w) ha', rfl, rfl, rfl, fun i hw ha => ?_⟩
  · rw [give_returned, writeLE_returned, readLE_writeLE]
  · subst hw
    rw [ha]
    exact sample_writeLE s i v

/-- Settles O9: the read returns `readLE`, whose bytes are those of `WIN`. -/
theorem windowReadsComplete : Obligations.WindowReadsComplete := by
  intro s a w hal hwin
  exact ⟨_, perform_ld_window s hal hwin, fun k hk => extract_readLE s _ _ k hk (bytes_le_four w)⟩

/-! ### A legal read (R45, R51) -/

/-- A legal read that completes returns one value, whatever the reads before it have returned. -/
theorem perform_ld_value {a : BitVec 8} {w : Width} {s t : State} (hl : legalRead a w = true)
    (h : perform (.ld w a) s = .next t) :
    ∃ x, ∀ returned, perform (.ld w a) { s with returned := returned } =
      .next { s with returned := returned ++ [x] } := by
  obtain ⟨hout, hstatus⟩ := (memRead_completes_iff a w s).1 ⟨t, h⟩ hl
  by_cases hmem : a.toNat ≤ 0x4F
  · refine ⟨s.readLE a.toNat w.bytes, fun returned => ?_⟩
    by_cases hwin : a.toNat ≤ 0x3F
    · rw [perform, memRead, if_neg (by simp [hl]), if_pos hwin]
      rfl
    · exact (memRead_out _ hl (by omega) hmem).trans (if_neg (hout (by omega) hmem))
  · obtain ⟨rfl, rfl | rfl | rfl | rfl⟩ := legalRead_register hl (by omega)
    · exact ⟨0, fun returned => memRead_cmd _⟩
    · exact ⟨s.arg, fun returned => memRead_arg _⟩
    · exact ⟨s.res, fun returned => memRead_res _⟩
    · have hcode := hstatus rfl
      exact ⟨Status.readValue s.status, fun returned => (memRead_status _).trans (if_neg (by dsimp only; omega))⟩

/-- Settles O8: the read appends its value, which the next read of the same address returns again. -/
theorem readsRepeat : Obligations.ReadsRepeat := by
  intro s t a w hl h
  obtain ⟨x, hx⟩ := perform_ld_value hl h
  have ht : t = { s with returned := s.returned ++ [x] } := by
    have hs := (hx s.returned).symm.trans h
    simpa [eq_comm] using hs
  subst ht
  exact ⟨x, rfl, hx _⟩

/-- Settles O10: the accesses to each of the four registers. -/
theorem registerAccesses : Obligations.RegisterAccesses := by
  intro s v
  exact ⟨memRead_cmd s, memRead_arg s, memRead_res s, fun hcode => (memRead_status s).trans (if_neg (by omega)),
    memWrite_arg s v⟩

/-! ### One step -/

/-- Settles O3: both halves are the definition of `step`. -/
theorem stepPerformsTheOldestAccess : Obligations.StepPerformsTheOldestAccess :=
  ⟨fun _ _ _ h => step_pending h, fun _ h => step_idle h⟩

/-- Settles O4: a write to `CMD` runs its word, and the four bytes of a word decode as the word does. -/
theorem stepRunsTheDecodedCommand : Obligations.StepRunsTheDecodedCommand := by
  intro s rest v i hp hd
  rw [decodeBytes_wordBytes, or_self] at hd
  rw [step_pending hp]
  exact (memWrite_cmd _ v).trans (execute_of_decode _ hd)

/-- Settles O2: the step is `applyReset`, after which nothing is listed. -/
theorem resetAppliedToARunningBlock : Obligations.ResetAppliedToARunningBlock := by
  intro s rest hp
  exact ⟨_, step_pending hp, rfl, rfl, rfl, fun a => (written_eq_false_iff _ a).2 (byte?_nil a), rfl, rfl⟩

/-- Settles O20, by evaluating the decoder on each word. -/
theorem specWordsDecode : Obligations.SpecWordsDecode := by
  unfold Obligations.SpecWordsDecode
  decide

/-- Settles O23: a reserved opcode is `raise` of ILLEGAL_OP. -/
theorem reservedOpcodeRecordsIllegalOp : Obligations.ReservedOpcodeRecordsIllegalOp := by
  intro op s
  exact ⟨_, exec_reserved s op, rfl, err_raise _ _, fun h0 => ecode_raise_of_no_err h0 .illegalOp,
    fun h1 => raise_of_err h1 _, highBits_raise _ _⟩

/-- Settles O15: of the ways `STATUS` changes only the recording of the access's own error raises `ERR`. -/
theorem onlyErroneousAccessesSetErr : Obligations.OnlyErroneousAccessesSetErr := by
  intro s t h he he'
  rcases step_statusChange h with hk | ⟨op, rest, hp, hc⟩
  · simp [hk, he] at he'
  · obtain ⟨e, hop, -⟩ := hc.ecode_of_err_rises he he'
    exact ⟨op, rest, hp, Option.isSome_iff_exists.2 ⟨e, hop⟩⟩

/-! ### Where a legal step stops (R37, R38) -/

/-- An access that does not complete is a command that is not ready, a read of `OUT` before the first record, or a read
of a reserved `ECODE`. -/
theorem perform_cases (op : PortOp) (s : State) :
    (∃ t, perform op s = .next t) ∨
    (perform op s = .fault .unwrittenSample ∧
      ∃ v i, op = .st .word cmdAddr v ∧ decode v = .ok i ∧ ready i s = false) ∨
    (perform op s = .fault .outUnspecified ∧ Status.olen s.status = 0 ∧
      ∃ w a, op = .ld w a ∧ 0x40 ≤ a.toNat ∧ a.toNat ≤ 0x4F) ∨
    3 < (Status.ecode s.status).toNat := by
  by_cases hrun : ∃ t, perform op s = .next t
  · exact .inl hrun
  refine .inr ?_
  cases op with
  | ld w a =>
    have hstop := mt (memRead_completes_iff a w s).2 hrun
    simp only [Classical.not_imp, not_and_or, Decidable.not_not, not_le] at hstop
    obtain ⟨hl, ⟨hlo, hhi, ho⟩ | ⟨-, hcode⟩⟩ := hstop
    · exact .inr (.inl ⟨(memRead_out s hl hlo hhi).trans (if_pos ho), ho, w, a, rfl, hlo, hhi⟩)
    · exact .inr (.inr hcode)
  | st w a v =>
    have hstop := mt (memWrite_completes_iff a w v s).2 hrun
    simp only [Classical.not_imp, execute_completes_iff, not_forall, Bool.not_eq_true] at hstop
    obtain ⟨hl, rfl, i, hd, hr⟩ := hstop
    obtain ⟨rfl, -⟩ := legalWrite_register hl (by decide)
    refine .inl ⟨?_, v, i, rfl, hd, hr⟩
    exact (memWrite_cmd s v).trans ((execute_of_decode s hd).trans (exec_faults i s hr))
  | reset => exact absurd ⟨_, rfl⟩ hrun

/-- A command that is not ready reads a byte that nothing has written (R37). -/
theorem exists_unwritten_of_not_ready {i : Instr} {s : State} (h : ready i s = false) :
    ∃ a, readsWin i a = true ∧ s.written a = false := by
  rw [← Bool.not_eq_true, ready_iff] at h
  simpa only [not_forall, exists_prop, Bool.not_eq_true] using h

/-- Settles O51: of the stops a legal `STATUS` leaves out the reserved `ECODE`. -/
theorem legalStepsStopOnlyOnUnspecifiedBytes : Obligations.LegalStepsStopOnlyOnUnspecifiedBytes := by
  rintro s ⟨-, ⟨-, hcode, -⟩, -⟩
  cases hp : s.pending with
  | nil => exact .inl ⟨s, step_idle hp⟩
  | cons op rest =>
    rw [step_pending hp]
    rcases perform_cases op { s with pending := rest } with
      hrun | ⟨hstop, v, i, rfl, hd, hr⟩ | ⟨hstop, ho, w, a, rfl, hlo, hhi⟩ | hres
    · exact .inl hrun
    · obtain ⟨a, ha, hw⟩ := exists_unwritten_of_not_ready hr
      exact .inr (.inl ⟨hstop, v, rest, i, a, rfl, hd, ha, hw⟩)
    · exact .inr (.inr ⟨hstop, ho, w, a, rest, rfl, hlo, hhi⟩)
    · exact absurd hres (Nat.not_lt.2 hcode)

end Sys2Proof.Machine

namespace Sys2Proof.Machine

/-! ### Ties of the indexer (R112, R117) -/

/-- Where the rounded quotient of R117 is exact, the position is that quotient, clamped. -/
theorem linePosition_of_exact {L n m : Int} (hL : 0 < L) (h : 6 * n + L = m * (2 * L)) :
    linePosition L n = (min (max m 0) 3).toNat := by
  rw [linePosition_of_pos hL, h, Int.mul_ediv_cancel _ (by omega)]

/-- A tie goes up: 3t = k + 1/2 rounds to k + 1. -/
theorem linePosition_tie {L n k : Int} (hL : 0 < L) (h : 6 * n = (2 * k + 1) * L) :
    linePosition L n = (min (max (k + 1) 0) 3).toNat :=
  linePosition_of_exact hL (by linear_combination h)

/-- Seen from the other end, where 3t = 2 - k + 1/2, the tie goes up as well, to 3 - k. -/
theorem linePosition_tie_swapped {L n k : Int} (hL : 0 < L) (h : 6 * n = (2 * k + 1) * L) :
    linePosition L (L - n) = (min (max (3 - k) 0) 3).toNat :=
  linePosition_of_exact hL (by linear_combination -h)

/-- The swapped line has the same length. -/
theorem lineLength_swap (u0 u1 : Rgb) :
    (u0.toInt.sub u1.toInt).dot (u0.toInt.sub u1.toInt) = (u1.toInt.sub u0.toInt).dot (u1.toInt.sub u0.toInt) := by
  simp only [Vec3.dot, Vec3.sub]
  ring

/-- On the swapped line a sample projects to the rest of the length. -/
theorem projection_swap (u0 u1 s : Rgb) :
    (u0.toInt.sub u1.toInt).dot (s.toInt.sub u1.toInt) =
      (u1.toInt.sub u0.toInt).dot (u1.toInt.sub u0.toInt) - (u1.toInt.sub u0.toInt).dot (s.toInt.sub u0.toInt) := by
  simp only [Vec3.dot, Vec3.sub]
  ring

/-- Settles O41: the rounded quotient is exact at a tie, on the line and on the swapped line. -/
theorem indexerTiesGoUpBothWays : Obligations.IndexerTiesGoUpBothWays := by
  constructor
  · rintro u0 u1 s L n k rfl rfl hL hk htie
    refine ⟨lineLength_swap u0 u1, projection_swap u0 u1 s, ?_, ?_⟩
    · rw [colorIndex, linePosition_tie hL htie, show (min (max ((k : Int) + 1) 0) 3).toNat = k + 1 by omega]
      rfl
    · rw [colorIndex, lineLength_swap u0 u1, projection_swap u0 u1 s, linePosition_tie_swapped hL htie,
        show (min (max (3 - (k : Int)) 0) 3).toNat = 3 - k by omega]
      rfl
  · intro L n k hL hk0 hk2 htie
    rw [linePosition_tie hL htie, linePosition_tie_swapped hL htie]
    omega

/-! ### Scales just below 8 (R133, R139) -/

/-- With a scale (8c - e)/c so little below 8 that e·k < c, the scaled distance of k over D lies strictly between two
integers: it is ⌊(8k - 1)/D⌋ and a proper fraction. -/
theorem scaledDistance_eq {c e D k : Nat} (he : 0 < e) (hk : 0 < k) (hD : 0 < D) (hek : e * k < c) :
    ∃ r, 0 < r ∧ r < c * D ∧ (8 * c - e) * k = c * D * ((8 * k - 1) / D) + r := by
  have hmod : (8 * k - 1) % D < D := Nat.mod_lt _ hD
  have hdiv : D * ((8 * k - 1) / D) + (8 * k - 1) % D + 1 = 8 * k := by
    have := Nat.div_add_mod (8 * k - 1) D
    omega
  generalize (8 * k - 1) / D = q at *
  generalize (8 * k - 1) % D = m at *
  have hprod : c * D * q + c * m + c = 8 * (c * k) := by
    linear_combination c * hdiv
  have hlast : c * m + c ≤ c * D := by
    rw [← Nat.mul_succ]
    exact Nat.mul_le_mul_left c hmod
  have hpos : 0 < e * k := Nat.mul_pos he hk
  have hscale : (8 * c - e) * k = 8 * (c * k) - e * k := by rw [Nat.sub_mul, Nat.mul_assoc]
  exact ⟨c * m + c - e * k, by omega, by omega, by omega⟩

/-- So all such scales give one bucket, whatever e/c is. -/
theorem scaledDistance_div {c e D k : Nat} (he : 0 < e) (hk : 0 < k) (hD : 0 < D) (hek : e * k < c) :
    (8 * c - e) * k / (c * D) = (8 * k - 1) / D := by
  obtain ⟨r, -, hr, h⟩ := scaledDistance_eq he hk hD hek
  rw [h, Nat.mul_add_div (by omega), Nat.div_eq_of_lt hr, Nat.add_zero]

theorem scaledDistance_not_dvd {c e D k : Nat} (he : 0 < e) (hk : 0 < k) (hD : 0 < D) (hek : e * k < c) :
    ¬ c * D ∣ (8 * c - e) * k := by
  obtain ⟨r, hr0, hr, h⟩ := scaledDistance_eq he hk hD hek
  rw [h, Nat.dvd_add_right (Nat.dvd_mul_right _ _)]
  exact Nat.not_dvd_of_pos_of_lt hr0 hr

/-- Settles O46: 79999/10000 is 8 - 1/10000, the binary32 value is 8 - 105/1048576, and a distance is at most 255. -/
theorem alphaScaleReadingsAgree : Obligations.AlphaScaleReadingsAgree := by
  intro a0 a1 α ha h255 hlo hhi
  rw [alphaBucket_eq_div hhi]
  rcases Nat.eq_or_lt_of_le hlo with rfl | hlt
  · simp
  · have hk : 0 < α - a1 := by omega
    have hD : 0 < a0 - a1 := by omega
    have hdecimal := scaledDistance_div (c := 10000) (e := 1) one_pos hk hD (by omega)
    have hbinary := scaledDistance_div (c := 1048576) (e := 105) (by decide) hk hD (by omega)
    have hproper := scaledDistance_not_dvd (c := 10000) (e := 1) one_pos hk hD (by omega)
    exact ⟨hdecimal.trans hbinary.symm, fun _ => hproper⟩

/-! ### Several copies of the block (R183) -/

/-- Everything a step of a platform can do: the step of one copy, put in its place. -/
theorem stepAt_cases {p q : Platform} {k : Nat} (h : p.stepAt k = some q) :
    ∃ s t, p[k]? = some s ∧ step s = .next t ∧ q = p.set k t := by
  unfold Platform.stepAt at h
  split at h
  · nomatch h
  · rename_i s hs
    split at h
    · rename_i t ht
      exact ⟨s, t, hs, ht, (Option.some.inj h).symm⟩
    · nomatch h
    · nomatch h

theorem map_copy_reset (n : Nat) : (Platform.reset n).map State.copy = List.range n := by
  rw [Platform.reset, List.map_map]
  exact List.map_id _

/-- Settles O52: a step of the platform replaces one entry of the list. -/
theorem instancesShareNothing : Obligations.InstancesShareNothing := by
  refine ⟨fun n k hk => ⟨State.resetCopy k, ?_, rfl⟩, fun p q k h => ?_⟩
  · rw [Platform.reset, List.getElem?_map, List.getElem?_range hk, Option.map_some]
  · obtain ⟨s, t, hs, ht, rfl⟩ := stepAt_cases h
    have hk : k < p.length := (List.getElem?_eq_some_iff.1 hs).1
    exact ⟨List.length_set, fun j hj => List.getElem?_set_ne hj.symm, s, t, hs, ht, List.getElem?_set_self hk⟩

/-- Settles O55: copy `k` has number `k` at reset, and a step of one copy keeps its number. -/
theorem instancesHaveTheirOwnUnspecifiedBytes : Obligations.InstancesHaveTheirOwnUnspecifiedBytes := by
  refine ⟨fun s a h => ?_, fun n => ?_, fun p q k h => ?_⟩
  · rw [State.byteAt, (written_eq_false_iff s a).1 h, Option.getD_none]
  · rw [map_copy_reset]
    exact List.nodup_range
  · obtain ⟨s, t, hs, ht, rfl⟩ := stepAt_cases h
    have hcopy : (p.map State.copy)[k]? = some t.copy := by rw [List.getElem?_map, hs, Option.map_some, step_copy ht]
    obtain ⟨hk, hget⟩ := List.getElem?_eq_some_iff.1 hcopy
    rw [List.map_set, ← hget, List.set_getElem_self]

/-! ### The pseudo-instruction `texel` (R77) -/

theorem written_writeLE_inside (s : State) (a n k : Nat) (v : Word) (hk : k < n) (hn : n ≤ 4) :
    (s.writeLE a n v).written (a + k) = true := by
  have hl : k < ((wordBytes v).take n).length := by
    rw [List.length_take, wordBytes_length]
    omega
  rw [State.written, writeLE_mem, byte?_storeAll_inside _ _ _ _ hl, List.getElem?_eq_getElem hl]
  rfl

/-- Settles O53: the line is one aligned 4-byte write to the sample's address, whose bytes are the four channels. -/
theorem texelLineSetsOneSample : Obligations.TexelLineSetsOneSample := by
  intro s i r g b a
  have haddr : (BitVec.ofNat 8 (4 * i.val)).toNat = 4 * i.val := by
    rw [BitVec.toNat_ofNat]
    omega
  have hrun := perform_st_window (a := BitVec.ofNat 8 (4 * i.val)) (w := .word) s (a ++ b ++ g ++ r)
    (by rw [haddr]; exact Nat.mul_mod_right 4 _) (by rw [haddr, Width.bytes]; omega)
  rw [haddr, Width.bytes] at hrun
  obtain ⟨hrgb, halpha⟩ := sample_writeLE s i.val (a ++ b ++ g ++ r)
  rw [extract_append_byte0, extract_append_byte1, extract_append_byte2] at hrgb
  rw [extract_append_byte3] at halpha
  exact ⟨_, _, rfl, hrun, hrgb, halpha, fun k hk => written_writeLE_inside s _ 4 k _ hk le_rfl,
    fun n hn => byteAt_writeLE_outside s _ le_rfl hn, rfl, rfl, rfl⟩

/-! ### The host's program for an image (R200 to R203) -/

/-- How many bytes of `OUT` an access reads. -/
def PortOp.outBytesRead : PortOp → Nat
  | .ld w a => if 0x40 ≤ a.toNat ∧ a.toNat + w.bytes ≤ 0x50 then w.bytes else 0
  | .st _ _ _ => 0
  | .reset => 0

/-- How many bytes of `OUT` a program reads. -/
def outBytesRead (lines : List AsmLine) : Nat := ((assemble lines).map PortOp.outBytesRead).sum

theorem outBytesRead_append (l l' : List AsmLine) : outBytesRead (l ++ l') = outBytesRead l + outBytesRead l' := by
  rw [outBytesRead, assemble_append, List.map_append, List.sum_append]
  rfl

theorem outBytesRead_flatMap {α : Type} (f : α → List AsmLine) (n : Nat) (h : ∀ x, outBytesRead (f x) = n)
    (l : List α) : outBytesRead (l.flatMap f) = l.length * n := by
  induction l with
  | nil => simp [outBytesRead, assemble]
  | cons x l ih => rw [List.flatMap_cons, outBytesRead_append, h, ih, List.length_cons, Nat.succ_mul, Nat.add_comm]

theorem outBytesRead_fillTile (img : Image) (tx ty : Nat) : outBytesRead (img.fillTile tx ty) = 0 := by
  rw [Image.fillTile, List.map_eq_flatMap, outBytesRead_flatMap _ 0 fun _ => rfl, Nat.mul_zero]

theorem outBytesRead_readRecord (f : Format) : outBytesRead f.readRecord = f.blockBytes := by
  cases f <;> decide

/-- A tile's program reads its record and nothing else of `OUT`. -/
theorem outBytesRead_tileLines (img : Image) (f : Format) (tx ty : Nat) :
    outBytesRead (img.tileLines f tx ty) = f.blockBytes := by
  have hcommand : outBytesRead [.command f.command] = 0 := rfl
  rw [Image.tileLines, outBytesRead_append, outBytesRead_append, outBytesRead_fillTile, hcommand,
    outBytesRead_readRecord, Nat.zero_add]

theorem Runs.weaken {P P' Q Q' : State → Prop} {ops : List PortOp} {k : Nat} (hP : ∀ s, P' s → P s)
    (hQ : ∀ s, Q s → Q' s) (h : Runs P ops k Q) : Runs P' ops k Q' := by
  intro s rest hs hp
  obtain ⟨t, ws, hr, ht, he, hl, hq⟩ := h s rest (hP s hs) hp
  exact ⟨t, ws, hr, ht, he, hl, hQ t hq⟩

/-- From any state a tile's program runs to its end and returns one word for every four bytes of the record. -/
theorem tileLines_run (img : Image) (f : Format) (tx ty : Nat) :
    Runs (fun _ => True) (assemble (img.tileLines f tx ty)) (f.blockBytes / 4) fun _ => True := by
  have hfill : Runs (Filled []) (assemble (img.fillTile tx ty)) 0 (Filled (List.finRange 16)) :=
    texels_run (fun i => img.tilePixel tx ty (i.val % 4) (i.val / 4)) (List.finRange 16) []
  have hcommand : Runs (Filled (List.finRange 16)) (assemble [.command f.command]) 0 HasRecord := command_runs f
  have htile := (hfill.append hcommand).append (readRecord_runs f)
  rw [← assemble_append, ← assemble_append, Nat.zero_add] at htile
  exact htile.weaken (fun _ _ _ hi => nomatch hi) fun _ _ => trivial

theorem runs_flatMap {α : Type} {P : State → Prop} (f : α → List AsmLine) (k : Nat)
    (h : ∀ x, Runs P (assemble (f x)) k P) (l : List α) : Runs P (assemble (l.flatMap f)) (l.length * k) P := by
  induction l with
  | nil => simpa [assemble] using Runs.nil
  | cons x l ih =>
    rw [List.flatMap_cons, assemble_append, List.length_cons, Nat.succ_mul, Nat.add_comm]
    exact (h x).append ih

theorem length_tiles (img : Image) : img.tiles.length = tilesFor img.width * tilesFor img.height := by
  simp [Image.tiles, List.length_flatMap, Nat.mul_comm]

theorem length_streamOf (ws : List Word) : (streamOf ws).length = ws.length * 4 := by
  simp [streamOf, List.length_flatMap]

theorem lines_eq_some {img : Image} {f : Format} {ls : List AsmLine} (h : img.lines f = some ls) :
    ls = img.tiles.flatMap fun t => img.tileLines f t.1 t.2 := by
  unfold Image.lines at h
  split at h
  · exact (Option.some.inj h).symm
  · nomatch h

/-- Settles O54: tile by tile, each reads one record, and there are ceil(w/4) * ceil(h/4) tiles. -/
theorem hostReadsTheWholeStream : Obligations.HostReadsTheWholeStream := by
  intro img f ls n hls hn
  obtain rfl := lines_eq_some hls
  have hbytes : f.blockBytes = if f = .bc1 then 8 else 16 := by cases f <;> rfl
  have hlen : img.tiles.length * f.blockBytes = n := by rw [hn, length_tiles, hbytes]; rfl
  refine ⟨(outBytesRead_flatMap _ _ (fun _ => outBytesRead_tileLines ..) _).trans hlen, fun s hp => ?_⟩
  obtain ⟨t, ws, hrun, ht, hret, hws, -⟩ :=
    runs_flatMap _ _ (fun x : Nat × Nat => tileLines_run img f x.1 x.2) img.tiles s [] trivial (by simpa using hp)
  refine ⟨t, ws, hrun, ht, hret, ?_⟩
  have hwords : f.blockBytes / 4 * 4 = f.blockBytes := by cases f <;> rfl
  rw [length_streamOf, hws, Nat.mul_assoc, hwords, hlen]

end Sys2Proof.Machine
